-- ==== Sys2Proof/Word.lean ====
section
/-! DEFINITION. The machine's unit types: the 16-bit word, the byte of an image file, the 15-bit
address and the bank of eight registers (spec/00_scope.md R6, spec/10_state.md R20, R21, R28). -/

namespace Sys2Proof

/-- A memory word, a register's content or a stack entry: an unsigned integer in [0, 65536) (R20). -/
abbrev Word := BitVec 16

/-- A byte of the program image's byte stream; bytes exist only at the block's boundary (R41). -/
abbrev Byte := BitVec 8

/-- An address of the Program Store, in [0, 32768) (R26, R28). Its arithmetic wraps modulo 32768,
which is the reduction R44 asks of every address. -/
abbrev Addr := BitVec 15

/-- The Register Bank `x[0]`..`x[7]` (R21). -/
abbrev RegBank := Vector Word 8

end Sys2Proof
end

