-- ==== Sys2Proof/Syntax.lean ====
section
/-! DEFINITION. The abstract syntax: the three classes of a raw operand word, the three resolution
modes, and the 21 instructions (spec/30_encoding.md R61, R63, R68). -/

namespace Sys2Proof

/-- A raw word by its class (R61). An instruction's operands are kept so: which class a word is in
does not depend on the operand's mode. -/
inductive Operand where
  /-- `Lit(w)`: the literal value w < 32768. -/
  | lit (v : BitVec 15)
  /-- `Reg(i)`: the raw word 32768 + i. -/
  | reg (i : Fin 8)
  /-- `Inv(w)`: a raw word w ≥ 32776, "illegal and fatal" where it is resolved or written. -/
  | inv (w : Word)
  deriving DecidableEq, Repr

/-- The resolution mode of an operand position (R63), fixed by the opcode. -/
inductive Mode where
  /-- Value mode (R64). -/
  | value
  /-- RegisterIndex mode (R65). -/
  | registerIndex
  /-- RawAddress mode (R66). -/
  | rawAddress
  deriving DecidableEq, Repr

/-- The 21 defined instructions, one constructor per row of spec/opcode_table.json, operands in the
order of R68. -/
inductive Instr where
  /-- 0: stop cleanly (R170). -/
  | halt
  /-- 1: dst RegisterIndex, src Value (R100). -/
  | set (dst src : Operand)
  /-- 2: src Value (R101). -/
  | push (src : Operand)
  /-- 3: dst RawAddress (R102). -/
  | pop (dst : Operand)
  /-- 4: dst RawAddress, a Value, b Value (R120). -/
  | eq (dst a b : Operand)
  /-- 5: dst RawAddress, a Value, b Value (R121). -/
  | gt (dst a b : Operand)
  /-- 6: target Value (R151). -/
  | jmp (target : Operand)
  /-- 7: cond Value, target Value (R152). -/
  | jt (cond target : Operand)
  /-- 8: cond Value, target Value (R153). -/
  | jf (cond target : Operand)
  /-- 9: dst RawAddress, a Value, b Value (R130). -/
  | add (dst a b : Operand)
  /-- 10: dst RawAddress, a Value, b Value (R131). -/
  | mult (dst a b : Operand)
  /-- 11: dst RawAddress, a Value, b Value (R132). -/
  | mod (dst a b : Operand)
  /-- 12: dst RawAddress, a Value, b Value (R133). -/
  | and (dst a b : Operand)
  /-- 13: dst RawAddress, a Value, b Value (R134). -/
  | or (dst a b : Operand)
  /-- 14: dst RawAddress, a Value (R135). -/
  | not (dst a : Operand)
  /-- 15: dst RegisterIndex, srcAddr Value (R103). -/
  | rmem (dst srcAddr : Operand)
  /-- 16: dstAddr Value, src Value (R104). -/
  | wmem (dstAddr src : Operand)
  /-- 17: target Value (R154). -/
  | call (target : Operand)
  /-- 18: no operand (R155). -/
  | ret
  /-- 19: ch Value (R171). -/
  | out (ch : Operand)
  /-- 21: no operand (R172). -/
  | noop
  deriving DecidableEq, Repr

end Sys2Proof
end

