-- ==== Sys2Proof/WellFormed.lean ====
section
/-! DEFINITION. Which instruction terms stand for words of the machine: an operand of class `Inv`
holds a word of that class (spec/30_encoding.md R61). Every other bound is in the operand's type. -/

namespace Sys2Proof

/-- An operand is well formed when its class is the class of a word: `Inv(w)` needs w ≥ 32776. -/
def Operand.wf : Operand → Bool
  | .lit _ => true
  | .reg _ => true
  | .inv w => decide (32776 ≤ w.toNat)

/-- An instruction is well formed when each of its operands is. -/
def Instr.wf : Instr → Bool
  | .halt => true
  | .set dst src => dst.wf && src.wf
  | .push src => src.wf
  | .pop dst => dst.wf
  | .eq dst a b => dst.wf && a.wf && b.wf
  | .gt dst a b => dst.wf && a.wf && b.wf
  | .jmp target => target.wf
  | .jt cond target => cond.wf && target.wf
  | .jf cond target => cond.wf && target.wf
  | .add dst a b => dst.wf && a.wf && b.wf
  | .mult dst a b => dst.wf && a.wf && b.wf
  | .mod dst a b => dst.wf && a.wf && b.wf
  | .and dst a b => dst.wf && a.wf && b.wf
  | .or dst a b => dst.wf && a.wf && b.wf
  | .not dst a => dst.wf && a.wf
  | .rmem dst srcAddr => dst.wf && srcAddr.wf
  | .wmem dstAddr src => dstAddr.wf && src.wf
  | .call target => target.wf
  | .ret => true
  | .out ch => ch.wf
  | .noop => true

end Sys2Proof
end

