-- ==== Sys2Proof/Decode.lean ====
section
/-! DEFINITION. Raw words to instructions and back: the word classes, the opcode map, the decoder
(total, rejecting by name) and the encoder (spec/20_memory.md R41; spec/30_encoding.md R60 to R71). -/

namespace Sys2Proof

/-! ## Word classes (R61, R62) -/

/-- The class of a raw word, by its numeric range (R61). -/
def Operand.ofWord (w : Word) : Operand :=
  if w.toNat < 32768 then .lit (w.setWidth 15)
  else if w.toNat < 32776 then .reg (Fin.ofNat 8 (w.toNat - 32768))
  else .inv w

/-- The raw word an operand stands for (R61): a literal is its own value, register i is 32768 + i. -/
def Operand.toWord : Operand → Word
  | .lit v => v.setWidth 16
  | .reg i => BitVec.ofNat 16 (32768 + i.val)
  | .inv w => w

/-! ## The opcode map (R68) -/

/-- One row of the opcode map: the resolved opcode, its mnemonic, and its operands' modes. -/
structure OpcodeRow where
  opcode : Nat
  mnemonic : String
  modes : List Mode
  deriving DecidableEq, Repr

/-- The 21 defined rows of R68, in the table's order; 20 and 22 and above have none. -/
def opcodeTable : List OpcodeRow :=
  [ ⟨0, "halt", []⟩,
    ⟨1, "set", [.registerIndex, .value]⟩,
    ⟨2, "push", [.value]⟩,
    ⟨3, "pop", [.rawAddress]⟩,
    ⟨4, "eq", [.rawAddress, .value, .value]⟩,
    ⟨5, "gt", [.rawAddress, .value, .value]⟩,
    ⟨6, "jmp", [.value]⟩,
    ⟨7, "jt", [.value, .value]⟩,
    ⟨8, "jf", [.value, .value]⟩,
    ⟨9, "add", [.rawAddress, .value, .value]⟩,
    ⟨10, "mult", [.rawAddress, .value, .value]⟩ ] ++
  [ ⟨11, "mod", [.rawAddress, .value, .value]⟩,
    ⟨12, "and", [.rawAddress, .value, .value]⟩,
    ⟨13, "or", [.rawAddress, .value, .value]⟩,
    ⟨14, "not", [.rawAddress, .value]⟩,
    ⟨15, "rmem", [.registerIndex, .value]⟩,
    ⟨16, "wmem", [.value, .value]⟩,
    ⟨17, "call", [.value]⟩,
    ⟨18, "ret", []⟩,
    ⟨19, "out", [.value]⟩,
    ⟨21, "noop", []⟩ ]

/-- The modes of a resolved opcode's operand words, in order; `none` for 20 and for 22 and above. -/
def operandModes (op : Word) : Option (List Mode) :=
  (opcodeTable.find? (fun r => r.opcode == op.toNat)).map OpcodeRow.modes

/-- The instruction that a resolved opcode and its operand words make (R68). -/
def instrOf (op : Word) (operands : List Operand) : Option Instr :=
  match op.toNat, operands with
  | 0, [] => some .halt
  | 1, [dst, src] => some (.set dst src)
  | 2, [src] => some (.push src)
  | 3, [dst] => some (.pop dst)
  | 4, [dst, a, b] => some (.eq dst a b)
  | 5, [dst, a, b] => some (.gt dst a b)
  | 6, [target] => some (.jmp target)
  | 7, [cond, target] => some (.jt cond target)
  | 8, [cond, target] => some (.jf cond target)
  | 9, [dst, a, b] => some (.add dst a b)
  | 10, [dst, a, b] => some (.mult dst a b)
  | 11, [dst, a, b] => some (.mod dst a b)
  | 12, [dst, a, b] => some (.and dst a b)
  | 13, [dst, a, b] => some (.or dst a b)
  | 14, [dst, a] => some (.not dst a)
  | 15, [dst, srcAddr] => some (.rmem dst srcAddr)
  | 16, [dstAddr, src] => some (.wmem dstAddr src)
  | 17, [target] => some (.call target)
  | 18, [] => some .ret
  | 19, [ch] => some (.out ch)
  | 21, [] => some .noop
  | _, _ => none

/-! ## The decoder -/

/-- Why the decoder gives no instruction. -/
inductive DecodeError where
  /-- The words end before the instruction does. -/
  | truncated
  /-- An opcode word ≥ 32776 (R69, R70 (b)). -/
  | invalidOpcodeWord (w : Word)
  /-- A resolved opcode of 20, or of 22 and above (R70 (a)). -/
  | undefinedOpcode (op : Word)
  /-- A byte stream with an odd number of bytes has no last word (R211). -/
  | oddByteCount
  deriving DecidableEq, Repr

/-- The instruction of a resolved opcode whose operand words head `ws`, with the words after it. -/
def decodeResolved (op : Word) (ws : List Word) : Except DecodeError (Instr × List Word) :=
  match operandModes op with
  | none => .error (.undefinedOpcode op)
  | some modes =>
    if ws.length < modes.length then .error .truncated
    else
      match instrOf op ((ws.take modes.length).map Operand.ofWord) with
      | some i => .ok (i, ws.drop modes.length)
      | none => .error (.undefinedOpcode op)

/-- The decoder: the instruction at the head of `ws`, and the words after it. The opcode word is
resolved in Value mode, so the registers take part (R69, R71). -/
def decode (x : RegBank) : List Word → Except DecodeError (Instr × List Word)
  | [] => .error .truncated
  | w0 :: ws =>
    match Operand.ofWord w0 with
    | .lit v => decodeResolved (v.setWidth 16) ws
    | .reg i => decodeResolved x[i] ws
    | .inv w => .error (.invalidOpcodeWord w)

/-! ## Bytes at the boundary (R41) -/

/-- The words of a byte stream, each pair's first byte its low byte; `none` for an odd length. -/
def wordsOfBytes : List Byte → Option (List Word)
  | [] => some []
  | [_] => none
  | lo :: hi :: rest => (wordsOfBytes rest).map (BitVec.ofNat 16 (lo.toNat + 256 * hi.toNat) :: ·)

/-- The byte stream of a list of words, low byte first. -/
def bytesOfWords : List Word → List Byte
  | [] => []
  | w :: ws => w.setWidth 8 :: (w >>> 8).setWidth 8 :: bytesOfWords ws

/-- The decoder on a byte stream. -/
def decodeBytes (x : RegBank) (bs : List Byte) : Except DecodeError (Instr × List Word) :=
  match wordsOfBytes bs with
  | some ws => decode x ws
  | none => .error .oddByteCount

/-! ## The encoder -/

/-- The resolved opcode of an instruction (R68). -/
def Instr.opcode : Instr → Word
  | .halt => 0
  | .set _ _ => 1
  | .push _ => 2
  | .pop _ => 3
  | .eq _ _ _ => 4
  | .gt _ _ _ => 5
  | .jmp _ => 6
  | .jt _ _ => 7
  | .jf _ _ => 8
  | .add _ _ _ => 9
  | .mult _ _ _ => 10
  | .mod _ _ _ => 11
  | .and _ _ _ => 12
  | .or _ _ _ => 13
  | .not _ _ => 14
  | .rmem _ _ => 15
  | .wmem _ _ => 16
  | .call _ => 17
  | .ret => 18
  | .out _ => 19
  | .noop => 21

/-- The operands of an instruction, in the order of its words (R60, R68). -/
def Instr.operands : Instr → List Operand
  | .halt => []
  | .set dst src => [dst, src]
  | .push src => [src]
  | .pop dst => [dst]
  | .eq dst a b => [dst, a, b]
  | .gt dst a b => [dst, a, b]
  | .jmp target => [target]
  | .jt cond target => [cond, target]
  | .jf cond target => [cond, target]
  | .add dst a b => [dst, a, b]
  | .mult dst a b => [dst, a, b]
  | .mod dst a b => [dst, a, b]
  | .and dst a b => [dst, a, b]
  | .or dst a b => [dst, a, b]
  | .not dst a => [dst, a]
  | .rmem dst srcAddr => [dst, srcAddr]
  | .wmem dstAddr src => [dstAddr, src]
  | .call target => [target]
  | .ret => []
  | .out ch => [ch]
  | .noop => []

/-- The words of an instruction (R60): its opcode word, then one word per operand. -/
def encode (i : Instr) : List Word :=
  i.opcode :: i.operands.map Operand.toWord

/-! ## The opcode table's numbering of bits -/

/-- The four words (the longest instruction, R60) that the number `w` stands for when its bits from
`nbits` up are 0: word k is bits 16k+15..16k. -/
def tableWords (nbits w : Nat) : List Word :=
  (List.range 4).map fun k => BitVec.ofNat 16 ((w % 2 ^ nbits) >>> (16 * k))

/-- What the decoder reads from a row's bits, numbered as spec/opcode_table.json numbers them. The
registers hold their reset value, 0; a row's own opcode word is a literal, so they are not read. -/
def decodeTableWord (nbits w : Nat) : Option Instr :=
  match decode (Vector.replicate 8 0) (tableWords nbits w) with
  | .ok (i, _) => some i
  | .error _ => none

end Sys2Proof
end

