-- ==== Sys2Proof/Config.lean ====
section
/-! DEFINITION. What one implementation fixes (spec/00_scope.md R7): the Execution Stack's capacity,
what a read of an unloaded word does, and the open format of trace events. -/

namespace Sys2Proof

/-- UNLOADED_POLICY (R7, R27): what a read of a word that is neither loaded nor written does. -/
inductive UnloadedPolicy where
  /-- The read raises UnloadedRead (R42). -/
  | fault
  /-- The word reads 0 (R36). -/
  | zero
  deriving DecidableEq, Repr

/-- The parameters of R7 that a rule reads. A machine carries them unchanged for its whole life
(notes/assumptions/1.md). -/
structure Config where
  /-- STACK_CAP: the greatest depth of the Execution Stack; `none` is `unbounded` (R24). -/
  stackCap : Option Nat
  /-- UNLOADED_POLICY (R27, R42). -/
  unloaded : UnloadedPolicy
  deriving DecidableEq, Repr

/-- The defaults of R7: an unbounded stack, and UNLOADED_POLICY `Fault`. -/
def Config.default : Config := { stackCap := none, unloaded := .fault }

/-- What a trace event may report (spec/60_exceptions.md R196): a register write, a memory write, a
stack push or pop, and a control transfer, each with the values before and after. -/
inductive TraceEvent where
  | registerWrite (i : Fin 8) (before after : Word)
  /-- `before` is what a read gave (R42): `none` where it faults, under policy Fault alone. -/
  | memoryWrite (a : Addr) (before : Option Word) (after : Word)
  | stackPush (depthBefore depthAfter : Nat) (pushed : Word)
  | stackPop (depthBefore depthAfter : Nat) (popped : Word)
  | controlTransfer (source target : Addr)
  deriving DecidableEq, Repr

/-- TRACE_FORMAT (R7, R196): the content of the record that the block presents for an event, or
`none` where it presents no record. The spec leaves both open, so this is a free value: it has no
body, and no rule reads it (notes/assumptions/8.md). -/
opaque Config.traceFormat : TraceEvent → Option (List Word)

end Sys2Proof
end

