-- ==== Sys2Proof/Machine/State.lean ====
section
/-! DEFINITION. The machine's state as plain data (spec/10_state.md), the conditions an instruction
may raise (spec/60_exceptions.md R181), and the reasons for which a step gives no next state. -/

namespace Sys2Proof.Machine

/-! ## Faults of the spec: entries into Faulted -/

/-- The kind of a fault record (R31, R181). -/
inductive FaultKind where
  | noFault
  | invalidOperand
  | undefinedOpcode
  | stackUnderflow
  | divideByZero
  | invalidRegister
  | unloadedRead
  | stackOverflow
  deriving DecidableEq, Repr

/-- What `raise Fault(kind, value)` is given: a kind of R181 with the value that kind records. -/
inductive FaultCause where
  /-- A raw word ≥ 32776 where a value, register index or destination is needed. -/
  | invalidOperand (w : Word)
  /-- A resolved opcode of 20, or of 22 and above. -/
  | undefinedOpcode (op : Word)
  /-- `pop` (3) or `ret` (18) with an empty stack. -/
  | stackUnderflow (op : Word)
  /-- `mod` with b = 0. -/
  | divideByZero
  /-- A literal destination of `set` or `rmem`. -/
  | invalidRegister (w : Word)
  /-- Under UNLOADED_POLICY `Fault`, a read of a word neither loaded nor written. -/
  | unloadedRead (a : Addr)
  /-- `push` (2) or `call` (17) at a finite STACK_CAP. -/
  | stackOverflow (op : Word)
  deriving DecidableEq, Repr

/-- The fault record `(kind, value, fault_pc)` (R31). -/
structure FaultRecord where
  kind : FaultKind
  value : Word
  faultPc : Addr
  deriving DecidableEq, Repr

/-- The record while Running or Halted: (None, 0, 0) (R31). -/
def FaultRecord.clear : FaultRecord := { kind := .noFault, value := 0, faultPc := 0 }

/-! ## Run state and memory -/

/-- The run state (R30). -/
inductive RunState where
  | running
  | halted
  | faulted
  deriving DecidableEq, Repr

/-- The Program Store and its definedness shadow (R26, R27) in one list: the words that are loaded
or written, each with its address, addresses rising. An address that is not listed has `mdef` false;
what reading it gives is UNLOADED_POLICY's to say (R42). The cell is a whole word, the smallest unit
the Program Store has (notes/assumptions/3.md). -/
abbrev Memory := List (Nat × Word)

/-! ## The state -/

/-- The state of one machine: the tuple of spec/10_state.md, and the parameters of R7, which no step
changes. -/
structure State where
  /-- STACK_CAP and UNLOADED_POLICY (R7): constant. -/
  cfg : Config
  /-- `mem` and `mdef` (R26, R27). -/
  mem : Memory
  /-- `x[0]`..`x[7]` (R21). -/
  x : RegBank
  /-- The Execution Stack, its top first (R24). -/
  stack : List Word
  /-- The instruction pointer (R28). -/
  pc : Addr
  /-- The run state (R30). -/
  run : RunState
  /-- The fault record (R31). -/
  fault : FaultRecord
  /-- The output log, in the order emitted (R32). -/
  outlog : List Word
  /-- Trace mode, latched at reset (R33). -/
  traceEn : Bool
  deriving DecidableEq, Repr

/-- The machine right after reset (R36, R210) with the defaults of R7, the image of length 0 that
R211 allows, and trace mode off (notes/assumptions/2.md). `resetWith` in Machine/Reset.lean is reset
with any image, configuration and trace input. -/
def State.reset : State :=
  { cfg := Config.default
    mem := []
    x := Vector.replicate 8 0
    stack := []
    pc := 0
    run := .running
    fault := .clear
    outlog := []
    traceEn := false }

/-! ## Why a step gives no next state -/

/-- Why `step` stops. A fault of the spec is not here: it is an entry into Faulted, a next state. -/
inductive Fault where
  /-- Raised by `step` alone, in a Halted state: "no step is enabled" from it (R30, R80). Safe: the
  machine stops there too. -/
  | stepWhileHalted
  /-- Raised by `step` alone, in a Faulted state: "no step is enabled" from it (R30, R80). Safe: the
  machine stops there too. -/
  | stepWhileFaulted
  deriving DecidableEq, Repr

/-- Why an instruction is refused. -/
inductive Refusal where
  /-- Raised by an arm of `exec` whose instruction has no meaning yet. Safe. No arm raises it: every
  instruction of the table has its meaning. -/
  | notModelled (mnemonic : String)
  deriving DecidableEq, Repr

end Sys2Proof.Machine
end

