-- ==== Sys2Proof/Machine/Ops.lean ====
section
/-! DEFINITION. The named operations over the state: reading and writing a register, a memory word,
the stack, the output log and the pc; taking a fault; halting (spec/10_state.md, spec/20_memory.md,
spec/40_dispatch.md R83, R84). -/

namespace Sys2Proof.Machine

/-! ## Memory as data -/

/-- `m` lists addresses that rise strictly, the first at least `lo`, all below 32768. -/
def Memory.risingFrom (lo : Nat) : Memory → Bool
  | [] => true
  | (a, _) :: rest => decide (lo ≤ a) && decide (a < 32768) && Memory.risingFrom (a + 1) rest

/-- The canonical form: strictly rising addresses of the Program Store (R26). An unlisted address has
no word, so no entry equals it, and equal memories are equal lists. -/
def Memory.wf (m : Memory) : Bool := Memory.risingFrom 0 m

/-- The word listed at address `a`. -/
def Memory.read? (m : Memory) (a : Nat) : Option Word :=
  match m with
  | [] => none
  | (b, w) :: rest => if b = a then some w else Memory.read? rest a

/-- `m` with the word `v` at address `a`, kept in canonical form. -/
def Memory.write (m : Memory) (a : Nat) (v : Word) : Memory :=
  match m with
  | [] => [(a, v)]
  | (b, w) :: rest =>
    if a < b then (a, v) :: (b, w) :: rest
    else if a = b then (a, v) :: rest
    else (b, w) :: Memory.write rest a v

/-! ## Addresses -/

/-- The address a word names: the word modulo 32768 (R44, R150). -/
def addrOf (w : Word) : Addr := w.setWidth 15

/-- An address as a word: bit 15 is 0. -/
def wordOf (a : Addr) : Word := a.setWidth 16

/-! ## What a fault records (R181) -/

/-- The kind a cause reports. -/
def FaultCause.kind : FaultCause → FaultKind
  | .invalidOperand _ => .invalidOperand
  | .undefinedOpcode _ => .undefinedOpcode
  | .stackUnderflow _ => .stackUnderflow
  | .divideByZero => .divideByZero
  | .invalidRegister _ => .invalidRegister
  | .unloadedRead _ => .unloadedRead
  | .stackOverflow _ => .stackOverflow

/-- The value a cause records: the raw word, the opcode or the address of R181's table. -/
def FaultCause.value : FaultCause → Word
  | .invalidOperand w => w
  | .undefinedOpcode op => op
  | .stackUnderflow op => op
  | .divideByZero => 11
  | .invalidRegister w => w
  | .unloadedRead a => wordOf a
  | .stackOverflow op => op

/-! ## Plain updates, one per kind of state -/

/-- `x[i]`. -/
def State.reg (s : State) (i : Fin 8) : Word := s.x[i]

/-- `x[i] <- v` (R21): no register is hard-wired. -/
def State.writeReg (s : State) (i : Fin 8) (v : Word) : State := { s with x := s.x.set i v }

/-- `mdef[a]` (R27): the word at `a` is loaded or written. -/
def State.mdef (s : State) (a : Addr) : Bool := (s.mem.read? a.toNat).isSome

/-- `MemWrite(a, 1, v)` (R43): `mem[a] <- v` and `mdef[a] <- true`. -/
def State.writeMem (s : State) (a : Addr) (v : Word) : State :=
  { s with mem := s.mem.write a.toNat v }

/-- The state with another Execution Stack. -/
def State.withStack (s : State) (st : List Word) : State := { s with stack := st }

/-- `pc <- t`. -/
def State.withPc (s : State) (t : Addr) : State := { s with pc := t }

/-- The advance past an instruction of `n` words (R83), with wrap from 32767 to 0 (R28). -/
def State.advance (s : State) (n : Nat) : State := s.withPc (s.pc + BitVec.ofNat 15 n)

/-- `Emit(v)` (R10, R171): `outlog <- outlog ++ [v]`. -/
def State.emit (s : State) (v : Word) : State := { s with outlog := s.outlog ++ [v] }

/-- `run <- Halted` (R170): the pc keeps the halt's own address. -/
def State.enterHalted (s : State) : State := { s with run := .halted }

/-! ## Taking a fault -/

/-- TAKING A FAULT, the one exception entry of this machine (R84, R186): the run state becomes
Faulted, the record becomes (kind, value, p) where p is the current instruction's address, and every
other piece of state is as before the instruction. There is no return from it (R188). -/
def State.raise (s : State) (c : FaultCause) : State :=
  { s with run := .faulted, fault := { kind := c.kind, value := c.value, faultPc := s.pc } }

/-- The outcome of an instruction from state `s`: its effect's state, or the fault the effect raised,
taken from `s` itself, so that a fault discards every write of the instruction (R11, R84). -/
def State.finish (s : State) (r : Except FaultCause State) :
    Host.Outcome State Fault Refusal :=
  match r with
  | .ok t => .next t
  | .error c => .next (s.raise c)

/-! ## Reading memory, and the stack -/

/-- `MemRead(a, 1)` (R42). -/
def State.memRead (s : State) (a : Addr) : Except FaultCause Word :=
  match s.mem.read? a.toNat with
  | some w => .ok w
  | none =>
    match s.cfg.unloaded with
    | .fault => .error (.unloadedRead a)
    | .zero => .ok 0

/-- `Push(v)` by the instruction whose opcode is `op` (R24): StackOverflow at a finite STACK_CAP. -/
def State.push (s : State) (op v : Word) : Except FaultCause State :=
  if s.cfg.stackCap = some s.stack.length then .error (.stackOverflow op)
  else .ok (s.withStack (v :: s.stack))

/-- `Pop()` by the instruction whose opcode is `op` (R24): the top, and the state without it;
StackUnderflow on an empty stack, never a sentinel value (R182). -/
def State.pop (s : State) (op : Word) : Except FaultCause (Word × State) :=
  match s.stack with
  | [] => .error (.stackUnderflow op)
  | v :: rest => .ok (v, s.withStack rest)

end Sys2Proof.Machine
end

