-- ==== Sys2Proof/Machine/Operands.lean ====
section
/-! DEFINITION. The three operand modes and the two destination writes (spec/30_encoding.md R63 to
R67; spec/20_memory.md R45), and the operand shapes that several instructions share. -/

namespace Sys2Proof.Machine

/-! ## Resolution -/

/-- `ResolveValue` (R64): a literal is its own value, a register its content. -/
def State.resolveValue (s : State) : Operand → Except FaultCause Word
  | .lit v => .ok (wordOf v)
  | .reg i => .ok (s.reg i)
  | .inv w => .error (.invalidOperand w)

/-- What `ResolveRegIndex` returns (R65): a tagged result, so that the literal 3 and register 3
differ. -/
inductive RegDest where
  /-- `RIdx(i)`. -/
  | index (i : Fin 8)
  /-- `RLit(w)`, which faults at its write. -/
  | literal (w : Word)
  deriving DecidableEq, Repr

/-- `ResolveRegIndex` (R65). -/
def resolveRegIndex : Operand → Except FaultCause RegDest
  | .lit v => .ok (.literal (wordOf v))
  | .reg i => .ok (.index i)
  | .inv w => .error (.invalidOperand w)

/-- `ResolveRaw` (R66): the destination descriptor is the word itself, unchecked until its write. -/
def resolveRaw (o : Operand) : Operand := o

/-- The check that resolving an operand in its mode makes when its word is fetched (R82 step 3): a
word ≥ 32776 faults in Value and RegisterIndex mode, and passes in RawAddress mode. -/
def checkMode (m : Mode) (o : Operand) : Except FaultCause Unit :=
  match m, o with
  | .rawAddress, _ => .ok ()
  | .value, .inv w => .error (.invalidOperand w)
  | .registerIndex, .inv w => .error (.invalidOperand w)
  | _, _ => .ok ()

/-! ## Destination writes -/

/-- `GenericWrite(d, v)` (R45). -/
def State.genericWrite (s : State) (d : Operand) (v : Word) : Except FaultCause State :=
  match d with
  | .lit a => .ok (s.writeMem a v)
  | .reg i => .ok (s.writeReg i v)
  | .inv w => .error (.invalidOperand w)

/-- `RegWrite(r, v, w)` (R67); the literal result carries the raw word `w` it reports. -/
def State.regWrite (s : State) (r : RegDest) (v : Word) : Except FaultCause State :=
  match r with
  | .index i => .ok (s.writeReg i v)
  | .literal w => .error (.invalidRegister w)

/-! ## Shared operand shapes -/

/-- `op dst a b` (format F3): resolve dst raw, a and b in Value mode, compute, write, advance by 4.
`f` gives the value to write, or the instruction's own fault. -/
def State.ternary (s : State) (f : Word → Word → Except FaultCause Word) (dst a b : Operand) :
    Except FaultCause State := do
  let d := resolveRaw dst
  let va ← s.resolveValue a
  let vb ← s.resolveValue b
  let v ← f va vb
  let t ← s.genericWrite d v
  .ok (t.advance 4)

/-- A jump-class redirection (R150): `pc <- t mod 32768`. -/
def State.jumpTo (s : State) (t : Word) : State := s.withPc (addrOf t)

/-- `op cond target` (R152, R153): both operands are resolved whether or not the jump is taken. -/
def State.branch (s : State) (taken : Word → Bool) (cond target : Operand) :
    Except FaultCause State := do
  let c ← s.resolveValue cond
  let t ← s.resolveValue target
  .ok (if taken c then s.jumpTo t else s.advance 3)

end Sys2Proof.Machine
end

