-- ==== Sys2Proof/Machine/ArithLogic.lean ====
section
/-! DEFINITION. `add`, `mult`, `mod`, `and`, `or`, `not` (spec/43_arith_logic.md R130 to R135). The
operands are naturals, the result is computed exactly and reduced modulo 32768 (R136). -/

namespace Sys2Proof.Machine

/-- `(a + b) mod 32768` (R130). -/
def addValue (a b : Word) : Word := BitVec.ofNat 16 ((a.toNat + b.toNat) % 32768)

/-- `(a * b) mod 32768` (R131). -/
def multValue (a b : Word) : Word := BitVec.ofNat 16 ((a.toNat * b.toNat) % 32768)

/-- `(a mod b) mod 32768`, and DivideByZero for b = 0 (R132). -/
def modValue (a b : Word) : Except FaultCause Word :=
  if b.toNat = 0 then .error .divideByZero
  else .ok (BitVec.ofNat 16 ((a.toNat % b.toNat) % 32768))

/-- `(a mod 32768) & (b mod 32768)` (R133). -/
def andValue (a b : Word) : Word := BitVec.ofNat 16 ((a.toNat % 32768) &&& (b.toNat % 32768))

/-- `(a mod 32768) | (b mod 32768)` (R134). -/
def orValue (a b : Word) : Word := BitVec.ofNat 16 ((a.toNat % 32768) ||| (b.toNat % 32768))

/-- `(65535 - a) mod 32768` (R135). -/
def notValue (a : Word) : Word := BitVec.ofNat 16 ((65535 - a.toNat) % 32768)

/-- `add dst a b` (R130). -/
def execAdd (dst a b : Operand) (s : State) : Host.Outcome State Fault Refusal :=
  s.finish (s.ternary (fun va vb => .ok (addValue va vb)) dst a b)

/-- `mult dst a b` (R131). -/
def execMult (dst a b : Operand) (s : State) : Host.Outcome State Fault Refusal :=
  s.finish (s.ternary (fun va vb => .ok (multValue va vb)) dst a b)

/-- `mod dst a b` (R132): the zero check comes before the destination check (R85). -/
def execMod (dst a b : Operand) (s : State) : Host.Outcome State Fault Refusal :=
  s.finish (s.ternary modValue dst a b)

/-- `and dst a b` (R133). -/
def execAnd (dst a b : Operand) (s : State) : Host.Outcome State Fault Refusal :=
  s.finish (s.ternary (fun va vb => .ok (andValue va vb)) dst a b)

/-- `or dst a b` (R134). -/
def execOr (dst a b : Operand) (s : State) : Host.Outcome State Fault Refusal :=
  s.finish (s.ternary (fun va vb => .ok (orValue va vb)) dst a b)

/-- `not dst a` (R135). -/
def execNot (dst a : Operand) (s : State) : Host.Outcome State Fault Refusal :=
  s.finish do
    let d := resolveRaw dst
    let va ← s.resolveValue a
    let t ← s.genericWrite d (notValue va)
    .ok (t.advance 3)

end Sys2Proof.Machine
end

