-- ==== Sys2Proof/Machine/Flags.lean ====
section
/-! DEFINITION. The machine has no flags, condition codes or predicate registers (spec/10_state.md
R29), so no instruction computes one. What stands in their place: the 0 or 1 that a comparison writes
to its destination (spec/42_compare.md), and the test of an operand's value that `jt` and `jf` make
(spec/44_control_transfer.md). -/

namespace Sys2Proof.Machine

/-- What `eq` writes: 1 if a equals b, else 0 (R120). -/
def eqValue (a b : Word) : Word := if a.toNat = b.toNat then 1 else 0

/-- What `gt` writes: 1 if a > b as naturals, else 0 (R121). -/
def gtValue (a b : Word) : Word := if b.toNat < a.toNat then 1 else 0

/-- The test of `jt`: the value is non-zero (R152). -/
def isNonZero (c : Word) : Bool := decide (c.toNat ≠ 0)

/-- The test of `jf`: the value is zero (R153). -/
def isZero (c : Word) : Bool := decide (c.toNat = 0)

end Sys2Proof.Machine
end

