-- ==== Sys2Proof/Machine/Compare.lean ====
section
/-! DEFINITION. `eq`, `gt` (spec/42_compare.md R120, R121). -/

namespace Sys2Proof.Machine

/-- `eq dst a b` (R120). -/
def execEq (dst a b : Operand) (s : State) : Host.Outcome State Fault Refusal :=
  s.finish (s.ternary (fun va vb => .ok (eqValue va vb)) dst a b)

/-- `gt dst a b` (R121). -/
def execGt (dst a b : Operand) (s : State) : Host.Outcome State Fault Refusal :=
  s.finish (s.ternary (fun va vb => .ok (gtValue va vb)) dst a b)

end Sys2Proof.Machine
end

