-- ==== Sys2Proof/Machine/ControlTransfer.lean ====
section
/-! DEFINITION. `jmp`, `jt`, `jf`, `call`, `ret` (spec/44_control_transfer.md R150 to R155). -/

namespace Sys2Proof.Machine

/-- `jmp target` (R151). -/
def execJmp (target : Operand) (s : State) : Host.Outcome State Fault Refusal :=
  s.finish do
    let t ← s.resolveValue target
    .ok (s.jumpTo t)

/-- `jt cond target` (R152). -/
def execJt (cond target : Operand) (s : State) : Host.Outcome State Fault Refusal :=
  s.finish (s.branch isNonZero cond target)

/-- `jf cond target` (R153). -/
def execJf (cond target : Operand) (s : State) : Host.Outcome State Fault Refusal :=
  s.finish (s.branch isZero cond target)

/-- `call target` (R154): the return address is `(p + 2) mod 32768`. -/
def execCall (target : Operand) (s : State) : Host.Outcome State Fault Refusal :=
  s.finish do
    let t ← s.resolveValue target
    let pushed ← s.push 17 (wordOf (s.pc + 2))
    .ok (pushed.jumpTo t)

/-- `ret` (R155): an empty stack raises StackUnderflow; it does not halt. -/
def execRet (s : State) : Host.Outcome State Fault Refusal :=
  s.finish do
    let (v, popped) ← s.pop 18
    .ok (popped.jumpTo v)

end Sys2Proof.Machine
end

