-- ==== Sys2Proof/Machine/DataMovement.lean ====
section
/-! DEFINITION. `set`, `push`, `pop`, `rmem`, `wmem` (spec/41_data_movement.md R100 to R104). -/

namespace Sys2Proof.Machine

/-- `set dst src` (R100). -/
def execSet (dst src : Operand) (s : State) : Host.Outcome State Fault Refusal :=
  s.finish do
    let r ← resolveRegIndex dst
    let v ← s.resolveValue src
    let t ← s.regWrite r v
    .ok (t.advance 3)

/-- `push src` (R101). -/
def execPush (src : Operand) (s : State) : Host.Outcome State Fault Refusal :=
  s.finish do
    let v ← s.resolveValue src
    let t ← s.push 2 v
    .ok (t.advance 2)

/-- `pop dst` (R102): the stack is checked before the destination (R85). -/
def execPop (dst : Operand) (s : State) : Host.Outcome State Fault Refusal :=
  s.finish do
    let d := resolveRaw dst
    let (v, popped) ← s.pop 3
    let t ← popped.genericWrite d v
    .ok (t.advance 2)

/-- `rmem dst srcAddr` (R103): the word read from memory is itself resolved in Value mode, with the
registers as they were before the instruction. -/
def execRmem (dst srcAddr : Operand) (s : State) : Host.Outcome State Fault Refusal :=
  s.finish do
    let r ← resolveRegIndex dst
    let a ← s.resolveValue srcAddr
    let m ← s.memRead (addrOf a)
    let v ← s.resolveValue (Operand.ofWord m)
    let t ← s.regWrite r v
    .ok (t.advance 3)

/-- `wmem dstAddr src` (R104). -/
def execWmem (dstAddr src : Operand) (s : State) : Host.Outcome State Fault Refusal :=
  s.finish do
    let a ← s.resolveValue dstAddr
    let v ← s.resolveValue src
    .ok ((s.writeMem (addrOf a) v).advance 3)

end Sys2Proof.Machine
end

