-- ==== Sys2Proof/Machine/System.lean ====
section
/-! DEFINITION. `halt`, `out`, `noop` (spec/45_system_and_output.md R170 to R172). Undefined opcodes
(R173) are no instruction: the fetch raises their fault (Machine/Fetch.lean). -/

namespace Sys2Proof.Machine

/-- `halt` (R170). -/
def execHalt (s : State) : Host.Outcome State Fault Refusal :=
  s.finish (.ok s.enterHalted)

/-- `out ch` (R171): the operand is resolved in trace mode too, and then nothing is emitted. -/
def execOut (ch : Operand) (s : State) : Host.Outcome State Fault Refusal :=
  s.finish do
    let v ← s.resolveValue ch
    .ok ((if s.traceEn then s else s.emit v).advance 2)

/-- `noop` (R172). -/
def execNoop (s : State) : Host.Outcome State Fault Refusal :=
  s.finish (.ok (s.advance 1))

end Sys2Proof.Machine
end

