-- ==== Sys2Proof/Machine/Dispatch.lean ====
section
/-! DEFINITION. Dispatch by the instruction (spec/40_dispatch.md R81): one arm per constructor. -/

namespace Sys2Proof.Machine

/-- The effect of a fetched instruction (R81). It does not look at the run state: `step` does. -/
def exec (i : Instr) (s : State) : Host.Outcome State Fault Refusal :=
  match i with
  | .halt => Sys2Proof.Machine.execHalt s
  | .set dst src => Sys2Proof.Machine.execSet dst src s
  | .push src => Sys2Proof.Machine.execPush src s
  | .pop dst => Sys2Proof.Machine.execPop dst s
  | .eq dst a b => Sys2Proof.Machine.execEq dst a b s
  | .gt dst a b => Sys2Proof.Machine.execGt dst a b s
  | .jmp target => Sys2Proof.Machine.execJmp target s
  | .jt cond target => Sys2Proof.Machine.execJt cond target s
  | .jf cond target => Sys2Proof.Machine.execJf cond target s
  | .add dst a b => Sys2Proof.Machine.execAdd dst a b s
  | .mult dst a b => Sys2Proof.Machine.execMult dst a b s
  | .mod dst a b => Sys2Proof.Machine.execMod dst a b s
  | .and dst a b => Sys2Proof.Machine.execAnd dst a b s
  | .or dst a b => Sys2Proof.Machine.execOr dst a b s
  | .not dst a => Sys2Proof.Machine.execNot dst a s
  | .rmem dst srcAddr => Sys2Proof.Machine.execRmem dst srcAddr s
  | .wmem dstAddr src => Sys2Proof.Machine.execWmem dstAddr src s
  | .call target => Sys2Proof.Machine.execCall target s
  | .ret => Sys2Proof.Machine.execRet s
  | .out ch => Sys2Proof.Machine.execOut ch s
  | .noop => Sys2Proof.Machine.execNoop s

end Sys2Proof.Machine
end

