-- ==== Sys2Proof/Machine/Fetch.lean ====
section
/-! DEFINITION. The fetch and resolution steps that every instruction shares (spec/40_dispatch.md R82,
R85 items 1 to 4; spec/45_system_and_output.md R173), and placing an instruction's words in memory. -/

namespace Sys2Proof.Machine

/-- The opcode word and its resolution (R82 step 1, R69). -/
def State.fetchOpcode (s : State) : Except FaultCause Word := do
  let w0 ← s.memRead s.pc
  s.resolveValue (Operand.ofWord w0)

/-- The operand words at `a`, `a + 1`, …, in order: each is read, and resolved in its mode, before the
next is read (R82 step 3), so its faults come before the next word's (R85 item 4). What a Value or
RegisterIndex operand resolves to is left to the instruction's meaning, which reads the same state. -/
def State.fetchOperands (s : State) (a : Addr) : List Mode → Except FaultCause (List Operand)
  | [] => .ok []
  | m :: ms => do
    let w ← s.memRead a
    checkMode m (Operand.ofWord w)
    let rest ← s.fetchOperands (a + 1) ms
    .ok (Operand.ofWord w :: rest)

/-- The instruction at the pc (R82), or the fault its fetch raises (R85 items 1 to 4). An opcode of
20, or of 22 and above, raises UndefinedOpcode before any operand is read (R173). -/
def State.fetch (s : State) : Except FaultCause Instr := do
  let op ← s.fetchOpcode
  match operandModes op with
  | none => .error (.undefinedOpcode op)
  | some modes =>
    let operands ← s.fetchOperands (s.pc + 1) modes
    match instrOf op operands with
    | some i => .ok i
    | none => .error (.undefinedOpcode op)

/-- The state with the words `ws` at `a`, `a + 1`, …, addresses wrapping from 32767 to 0. -/
def State.placeWords (s : State) (a : Addr) : List Word → State
  | [] => s
  | w :: ws => (s.writeMem a w).placeWords (a + 1) ws

/-- The state whose next step fetches the words `ws` at its pc: they stand there, and the machine is
Running, its fault record clear as R31 has it while Running. -/
def State.readyToFetch (s : State) (ws : List Word) : State :=
  { s.placeWords s.pc ws with run := .running, fault := .clear }

end Sys2Proof.Machine
end

