-- ==== Sys2Proof/Machine/Step.lean ====
section
/-! DEFINITION. One step of the machine (spec/40_dispatch.md R80, R86). -/

namespace Sys2Proof.Machine

/-- The step function (R86): from Running it fetches and runs one instruction, or takes the fault of
the fetch; from Halted and Faulted no step is enabled (R80). -/
def step (s : State) : Host.Outcome State Fault Refusal :=
  match s.run with
  | .halted => .fault .stepWhileHalted
  | .faulted => .fault .stepWhileFaulted
  | .running =>
    match s.fetch with
    | .error c => .next (s.raise c)
    | .ok i => exec i s

/-- The state whose next step fetches and runs the instruction whose bits are `w`, numbered as
spec/opcode_table.json numbers them, the bits from `nbits` up being 0. It stands for the load of a
program from outside the machine (notes/assumptions/2.md). -/
def State.withFetchWord (s : State) (nbits w : Nat) : State :=
  s.readyToFetch (tableWords nbits w)

end Sys2Proof.Machine
end

