-- ==== Sys2Proof/Machine/HostPort.lean ====
section
/-! DEFINITION. What the host reads at the block's boundary (spec/00_scope.md R8): the status ports, the
output port, and the exit status of a run's end (spec/10_state.md R30, R31; spec/60_exceptions.md R181,
R198). -/

namespace Sys2Proof.Machine

/-- `status.state` (R30); the code 3 is never produced. -/
def RunState.code : RunState → BitVec 2
  | .running => 0
  | .halted => 1
  | .faulted => 2

/-- `status.fault_kind` (R31, R181). -/
def FaultKind.code : FaultKind → BitVec 3
  | .noFault => 0
  | .invalidOperand => 1
  | .undefinedOpcode => 2
  | .stackUnderflow => 3
  | .divideByZero => 4
  | .invalidRegister => 5
  | .unloadedRead => 6
  | .stackOverflow => 7

/-- The status ports: `status.state`, `status.fault_kind`, `status.fault_value`, `status.fault_pc`
(R8). -/
structure Status where
  state : BitVec 2
  faultKind : BitVec 3
  faultValue : Word
  faultPc : Addr
  deriving DecidableEq, Repr

/-- The status of a state. -/
def State.status (s : State) : Status :=
  { state := s.run.code
    faultKind := s.fault.kind.code
    faultValue := s.fault.value
    faultPc := s.fault.faultPc }

/-- The exit status of the end of a run (R198): 0 for Halted, the fault kind's code for Faulted. A
run that is still Running has no end, so it has none (R197). -/
def State.exitStatus (s : State) : Option Nat :=
  match s.run with
  | .running => none
  | .halted => some 0
  | .faulted => some s.fault.kind.code.toNat

/-- The values that `out_valid`/`out_data` present in a step from `s` to `t` (R8, R171): what the
step appended to the output log. -/
def State.outputEvents (s t : State) : List Word := t.outlog.drop s.outlog.length

end Sys2Proof.Machine
end

