-- ==== Sys2Proof/Machine/Reset.lean ====
section
/-! DEFINITION. Reset and the load of a program image (spec/20_memory.md R41; spec/70_reset_and_hazards.md
R210 to R212; spec/10_state.md R36). -/

namespace Sys2Proof.Machine

/-- An image's words at addresses `a`, `a + 1`, … (R211). -/
def Memory.ofImage (a : Nat) : List Word → Memory
  | [] => []
  | w :: ws => (a, w) :: Memory.ofImage (a + 1) ws

/-- The state after reset with an image and a trace input (R36, R210); `none` where the spec refuses
the image, one of more than 32768 words, and the block never enters Running (R211). -/
def State.resetWith (cfg : Config) (image : List Word) (traceEn : Bool) : Option State :=
  if 32768 < image.length then none
  else
    some
      { cfg := cfg
        mem := Memory.ofImage 0 image
        x := Vector.replicate 8 0
        stack := []
        pc := 0
        run := .running
        fault := .clear
        outlog := []
        traceEn := traceEn }

/-- Reset with the image as a byte stream of little-endian words; an odd length is refused too
(R211). -/
def State.resetFromBytes (cfg : Config) (bytes : List Byte) (traceEn : Bool) : Option State :=
  (wordsOfBytes bytes).bind fun image => State.resetWith cfg image traceEn

/-- The host asserts reset between two steps of a run, in any run state (R210). Nothing of the earlier
run survives; the machine's parameters are the machine's own and stay (notes/assumptions/11.md). -/
def State.assertReset (s : State) (image : List Word) (traceEn : Bool) : Option State :=
  State.resetWith s.cfg image traceEn

end Sys2Proof.Machine
end

