-- ==== Sys2Proof/Machine/Trace.lean ====
section
/-! DEFINITION. The trace port (spec/60_exceptions.md R196): the events that a step's instruction makes
reportable in trace mode, and the records presented for them. It reads the machine and nothing of the
machine reads it: the Trace Sink has no effect on control flow or results. -/

namespace Sys2Proof.Machine

/-- The event of a write to a register, from `s` to `t`. -/
def registerEvent (i : Fin 8) (s t : State) : TraceEvent :=
  .registerWrite i (s.reg i) (t.reg i)

/-- What a read of the word at `a` gives (R42): under policy Zero the 0 of an unloaded word too, so that
`mdef` has no effect there (R27); `none` where the read faults. -/
def State.readable (s : State) (a : Addr) : Option Word := (s.memRead a).toOption

/-- The event of a write to memory, from `s` to `t`. -/
def memoryEvent (a : Addr) (s t : State) : List TraceEvent :=
  match t.readable a with
  | some after => [.memoryWrite a (s.readable a) after]
  | none => []

/-- The event of a write to a destination descriptor. -/
def destEvents (d : Operand) (s t : State) : List TraceEvent :=
  match d with
  | .lit a => memoryEvent a s t
  | .reg i => [registerEvent i s t]
  | .inv _ => []

/-- The event of a push. -/
def pushEvents (s t : State) : List TraceEvent :=
  match t.stack with
  | v :: _ => [.stackPush s.stack.length t.stack.length v]
  | [] => []

/-- The event of a pop. -/
def popEvents (s t : State) : List TraceEvent :=
  match s.stack with
  | v :: _ => [.stackPop s.stack.length t.stack.length v]
  | [] => []

/-- The event of a control transfer. -/
def jumpEvent (s t : State) : TraceEvent := .controlTransfer s.pc t.pc

/-- The event of a `jt` or `jf`, which transfers control only when taken. -/
def branchEvents (taken : Word → Bool) (cond : Operand) (s t : State) : List TraceEvent :=
  match s.resolveValue cond with
  | .ok c => if taken c then [jumpEvent s t] else []
  | .error _ => []

/-- What R196 lets trace mode report of an instruction that took `s` to `t` without a fault: every
register write, stack push and pop, memory write and control transfer. -/
def traceEvents (i : Instr) (s t : State) : List TraceEvent :=
  match i with
  | .halt => []
  | .set dst _ => destEvents dst s t
  | .push _ => pushEvents s t
  | .pop dst => popEvents s t ++ destEvents dst s t
  | .eq dst _ _ => destEvents dst s t
  | .gt dst _ _ => destEvents dst s t
  | .jmp _ => [jumpEvent s t]
  | .jt cond _ => branchEvents isNonZero cond s t
  | .jf cond _ => branchEvents isZero cond s t
  | .add dst _ _ => destEvents dst s t
  | .mult dst _ _ => destEvents dst s t
  | .mod dst _ _ => destEvents dst s t
  | .and dst _ _ => destEvents dst s t
  | .or dst _ _ => destEvents dst s t
  | .not dst _ => destEvents dst s t
  | .rmem dst _ => destEvents dst s t
  | .wmem dstAddr _ =>
    match s.resolveValue dstAddr with
    | .ok a => memoryEvent (addrOf a) s t
    | .error _ => []
  | .call _ => pushEvents s t ++ [jumpEvent s t]
  | .ret => popEvents s t ++ [jumpEvent s t]
  | .out _ => []
  | .noop => []

/-- The records on the trace port in the step from `s`: none outside trace mode and none for a
faulting instruction, which writes nothing; else what TRACE_FORMAT makes of each event. -/
def State.traceRecords (s : State) : List (List Word) :=
  match s.traceEn, s.run, s.fetch with
  | true, .running, .ok i =>
    match exec i s with
    | .next t =>
      if t.run = .faulted then [] else (traceEvents i s t).filterMap Config.traceFormat
    | .fault _ => []
    | .refused _ => []
  | _, _, _ => []

end Sys2Proof.Machine
end

