-- ==== Sys2Proof/Safety.lean ====
section
/-! DEFINITION. The terms that claims are stated in: the machine's invariant, what an instruction may
write, the first fault of an instruction as its rule lists them, and the shapes of the instruction
rules. -/

namespace Sys2Proof.Machine

/-! ## Safe states and the invariant -/

/-- A safe state: no fault has been taken (spec/60_exceptions.md R180). -/
abbrev State.Safe (s : State) : Prop := s.run ≠ .faulted

/-- R23: every register and every stack entry is in the semantic range. -/
abbrev State.SemanticRange (s : State) : Prop :=
  (∀ i : Fin 8, (s.reg i).toNat < 32768) ∧ ∀ v ∈ s.stack, v.toNat < 32768

/-- R31: the record is clear unless Faulted, and when Faulted it names a kind and the address the pc
still holds (R84). -/
abbrev State.RecordMatchesRun (s : State) : Prop :=
  (s.run ≠ .faulted → s.fault = .clear) ∧
  (s.run = .faulted → s.fault.kind ≠ .noFault ∧ s.fault.faultPc = s.pc)

/-- R24: the stack is never deeper than a finite STACK_CAP. -/
def State.stackWithinCap (s : State) : Bool :=
  match s.cfg.stackCap with
  | none => true
  | some cap => decide (s.stack.length ≤ cap)

/-- R171: every value emitted is in [0, 32767]. -/
abbrev State.OutputInRange (s : State) : Prop := ∀ v ∈ s.outlog, v.toNat < 32768

/-- The machine's invariant: the memory is canonical, and R23, R24, R31 and R171 hold. -/
abbrev State.Inv (s : State) : Prop :=
  s.mem.wf = true ∧ s.SemanticRange ∧ s.stackWithinCap = true ∧ s.RecordMatchesRun ∧ s.OutputInRange

/-! ## What an instruction may write -/

/-- The register a destination descriptor names. -/
def destRegOf : Operand → Option (Fin 8)
  | .reg i => some i
  | .lit _ => none
  | .inv _ => none

/-- The address a destination descriptor names. -/
def destAddrOf : Operand → Option Addr
  | .lit a => some a
  | .reg _ => none
  | .inv _ => none

/-- The one register an instruction may write (R21); R21 lists the instructions that write none. -/
def destReg : Instr → Option (Fin 8)
  | .set dst _ => destRegOf dst
  | .pop dst => destRegOf dst
  | .eq dst _ _ => destRegOf dst
  | .gt dst _ _ => destRegOf dst
  | .add dst _ _ => destRegOf dst
  | .mult dst _ _ => destRegOf dst
  | .mod dst _ _ => destRegOf dst
  | .and dst _ _ => destRegOf dst
  | .or dst _ _ => destRegOf dst
  | .not dst _ => destRegOf dst
  | .rmem dst _ => destRegOf dst
  | .halt => none
  | .push _ => none
  | .jmp _ => none
  | .jt _ _ => none
  | .jf _ _ => none
  | .wmem _ _ => none
  | .call _ => none
  | .ret => none
  | .out _ => none
  | .noop => none

/-- The one memory word an instruction may store to from state `s` (R40): the literal descriptor of a
RawAddress destination, or the resolved address of `wmem`. -/
def storeAddr (i : Instr) (s : State) : Option Addr :=
  match i with
  | .pop dst => destAddrOf dst
  | .eq dst _ _ => destAddrOf dst
  | .gt dst _ _ => destAddrOf dst
  | .add dst _ _ => destAddrOf dst
  | .mult dst _ _ => destAddrOf dst
  | .mod dst _ _ => destAddrOf dst
  | .and dst _ _ => destAddrOf dst
  | .or dst _ _ => destAddrOf dst
  | .not dst _ => destAddrOf dst
  | .wmem dstAddr _ =>
    match s.resolveValue dstAddr with
    | .ok a => some (addrOf a)
    | .error _ => none
  | .halt => none
  | .set _ _ => none
  | .push _ => none
  | .jmp _ => none
  | .jt _ _ => none
  | .jf _ _ => none
  | .rmem _ _ => none
  | .call _ => none
  | .ret => none
  | .out _ => none
  | .noop => none

/-- The instructions that reach the Execution Stack (R25). -/
def usesStack : Instr → Bool
  | .push _ => true
  | .pop _ => true
  | .call _ => true
  | .ret => true
  | .halt => false
  | .set _ _ => false
  | .eq _ _ _ => false
  | .gt _ _ _ => false
  | .jmp _ => false
  | .jt _ _ => false
  | .jf _ _ => false
  | .add _ _ _ => false
  | .mult _ _ _ => false
  | .mod _ _ _ => false
  | .and _ _ _ => false
  | .or _ _ _ => false
  | .not _ _ => false
  | .rmem _ _ => false
  | .wmem _ _ => false
  | .out _ => false
  | .noop => false

/-! ## The faults of an instruction, in the order its rule lists them (R85 items 4 to 6, R87) -/

/-- InvalidOperand of an operand word ≥ 32776. -/
def invalidIn : Operand → Option FaultCause
  | .inv w => some (.invalidOperand w)
  | .lit _ => none
  | .reg _ => none

/-- InvalidRegister of a literal RegisterIndex destination. -/
def literalDest : Operand → Option FaultCause
  | .lit v => some (.invalidRegister (wordOf v))
  | .reg _ => none
  | .inv _ => none

/-- StackUnderflow on an empty stack. -/
def emptyStack (s : State) (op : Word) : Option FaultCause :=
  if s.stack = [] then some (.stackUnderflow op) else none

/-- StackOverflow at a finite STACK_CAP. -/
def fullStack (s : State) (op : Word) : Option FaultCause :=
  if s.cfg.stackCap = some s.stack.length then some (.stackOverflow op) else none

/-- DivideByZero where the divisor's value is 0. -/
def zeroDivisor (s : State) (b : Operand) : Option FaultCause :=
  match s.resolveValue b with
  | .ok v => if v = 0 then some .divideByZero else none
  | .error _ => none

/-- The faults of `rmem`'s data read: UnloadedRead of the address, then InvalidOperand of the word. -/
def dataReadFault (s : State) (srcAddr : Operand) : Option FaultCause :=
  match s.resolveValue srcAddr with
  | .error _ => none
  | .ok a =>
    match s.memRead (addrOf a) with
    | .error c => some c
    | .ok m => if 32776 ≤ m.toNat then some (.invalidOperand m) else none

/-- The first fault that applies to an instruction once its words are read: each rule's line
"Exceptions, in order". `none` where none applies. -/
def firstFault (i : Instr) (s : State) : Option FaultCause :=
  match i with
  | .halt => none
  | .set dst src => (invalidIn dst).or ((invalidIn src).or (literalDest dst))
  | .push src => (invalidIn src).or (fullStack s 2)
  | .pop dst => (emptyStack s 3).or (invalidIn dst)
  | .eq dst a b => (invalidIn a).or ((invalidIn b).or (invalidIn dst))
  | .gt dst a b => (invalidIn a).or ((invalidIn b).or (invalidIn dst))
  | .jmp target => invalidIn target
  | .jt cond target => (invalidIn cond).or (invalidIn target)
  | .jf cond target => (invalidIn cond).or (invalidIn target)
  | .add dst a b => (invalidIn a).or ((invalidIn b).or (invalidIn dst))
  | .mult dst a b => (invalidIn a).or ((invalidIn b).or (invalidIn dst))
  | .mod dst a b => (invalidIn a).or ((invalidIn b).or ((zeroDivisor s b).or (invalidIn dst)))
  | .and dst a b => (invalidIn a).or ((invalidIn b).or (invalidIn dst))
  | .or dst a b => (invalidIn a).or ((invalidIn b).or (invalidIn dst))
  | .not dst a => (invalidIn a).or (invalidIn dst)
  | .rmem dst srcAddr =>
    (invalidIn dst).or ((invalidIn srcAddr).or ((dataReadFault s srcAddr).or (literalDest dst)))
  | .wmem dstAddr src => (invalidIn dstAddr).or (invalidIn src)
  | .call target => (invalidIn target).or (fullStack s 17)
  | .ret => emptyStack s 18
  | .out ch => invalidIn ch
  | .noop => none

/-! ## Where an instruction stands in memory -/

/-- The instruction `i` stands at the pc of `s` (R60, R69, R82): the word there resolves in Value mode
to its opcode, and its operand words stand at the next addresses, all readable. -/
def State.HoldsAtPc (s : State) (i : Instr) : Prop :=
  (∃ w0, s.memRead s.pc = .ok w0 ∧ s.resolveValue (Operand.ofWord w0) = .ok i.opcode) ∧
  ∀ (k : Nat) (o : Operand), i.operands[k]? = some o →
    s.memRead (s.pc + BitVec.ofNat 15 (k + 1)) = .ok o.toWord

/-! ## Shapes of instruction rules -/

/-- The rule of an instruction `mk dst a b` of format F3 with opcode `op` whose destination is a
RawAddress operand and whose result is `f a b` on naturals: its words, its faults in order, that the
result is below 32768 and so is held exactly, and its effect on a register destination and on a memory
destination. -/
def TernaryRule (mk : Operand → Operand → Operand → Instr) (op : Word) (f : Nat → Nat → Nat) :
    Prop :=
  ∀ (s : State) (dst a b : Operand),
    encode (mk dst a b) = [op, dst.toWord, a.toWord, b.toWord] ∧
    (∀ w, a = .inv w → exec (mk dst a b) s = .next (s.raise (.invalidOperand w))) ∧
    (∀ va w, s.resolveValue a = .ok va → b = .inv w →
      exec (mk dst a b) s = .next (s.raise (.invalidOperand w))) ∧
    ∀ va vb, s.resolveValue a = .ok va → s.resolveValue b = .ok vb →
      (f va.toNat vb.toNat < 32768) ∧
      (∀ w, dst = .inv w → exec (mk dst a b) s = .next (s.raise (.invalidOperand w))) ∧
      (∀ i, dst = .reg i → exec (mk dst a b) s =
        .next ((s.writeReg i (BitVec.ofNat 16 (f va.toNat vb.toNat))).withPc (s.pc + 4))) ∧
      (∀ m, dst = .lit m → exec (mk dst a b) s =
        .next ((s.writeMem m (BitVec.ofNat 16 (f va.toNat vb.toNat))).withPc (s.pc + 4)))

/-- The rule of a branch `mk cond target` of format F2 with opcode `op` that jumps exactly when
`taken` holds of the condition's value: its words, its faults in order, taken or not, and where the
pc goes. -/
def BranchRule (mk : Operand → Operand → Instr) (op : Word) (taken : Nat → Prop) : Prop :=
  ∀ (s : State) (cond target : Operand),
    encode (mk cond target) = [op, cond.toWord, target.toWord] ∧
    (∀ w, cond = .inv w → exec (mk cond target) s = .next (s.raise (.invalidOperand w))) ∧
    ∀ c, s.resolveValue cond = .ok c →
      (∀ w, target = .inv w → exec (mk cond target) s = .next (s.raise (.invalidOperand w))) ∧
      ∀ t, s.resolveValue target = .ok t →
        (taken c.toNat →
          exec (mk cond target) s = .next (s.withPc (BitVec.ofNat 15 (t.toNat % 32768)))) ∧
        (¬ taken c.toNat → exec (mk cond target) s = .next (s.withPc (s.pc + 3)))

/-! ## Views used to compare two machines -/

/-- The state with another trace latch and another output log. -/
def State.withTrace (s : State) (traceEn : Bool) (log : List Word) : State :=
  { s with traceEn := traceEn, outlog := log }

/-- The state of a machine whose UNLOADED_POLICY is `p`. -/
def State.withPolicy (s : State) (p : UnloadedPolicy) : State :=
  { s with cfg := { s.cfg with unloaded := p } }

/-- The state of a machine whose STACK_CAP is `cap`. -/
def State.withCap (s : State) (cap : Option Nat) : State :=
  { s with cfg := { s.cfg with stackCap := cap } }

end Sys2Proof.Machine
end

