-- ==== Sys2Proof/Certificates/Slice0/Obligations.lean ====
section
/-! DEFINITION. The statements for the provers, each a `Prop` named for what it states, from the
numbered rules of spec/. -/

open Sys2Proof Sys2Proof.Machine

/-! ## Words, operands and encodings -/

/-- spec/30_encoding.md R61: the class of every raw word by its numeric range, and the bit tests, which
the spec marks as derived from the ranges. -/
def Obligations.WordClassByRangeAndBits : Prop :=
  ∀ w : Word,
    (w.toNat < 32768 → Operand.ofWord w = .lit (w.setWidth 15)) ∧
    (∀ i : Fin 8, w.toNat = 32768 + i.val → Operand.ofWord w = .reg i) ∧
    (32776 ≤ w.toNat → Operand.ofWord w = .inv w) ∧
    (w.toNat < 32768 ↔ w.getLsbD 15 = false) ∧
    (32768 ≤ w.toNat ∧ w.toNat < 32776 ↔ w.getLsbD 15 = true ∧ w.extractLsb' 3 12 = 0) ∧
    (32776 ≤ w.toNat ↔ w.getLsbD 15 = true ∧ w.extractLsb' 3 12 ≠ 0) ∧
    (∀ i : Fin 8, w.toNat = 32768 + i.val → w.extractLsb' 0 3 = BitVec.ofNat 3 i.val)

/-- R64: Value mode on every raw word. -/
def Obligations.ValueModeOnEveryWord : Prop :=
  ∀ (s : State) (w : Word),
    (w.toNat < 32768 → s.resolveValue (Operand.ofWord w) = .ok w) ∧
    (∀ i : Fin 8, w.toNat = 32768 + i.val → s.resolveValue (Operand.ofWord w) = .ok s.x[i]) ∧
    (32776 ≤ w.toNat → s.resolveValue (Operand.ofWord w) = .error (.invalidOperand w))

/-- R65 and R67: a RegisterIndex destination on every raw word, from its resolution to its write. That a
literal one faults is the choice the spec makes in D6. -/
def Obligations.RegisterIndexModeOnEveryWord : Prop :=
  ∀ (s : State) (w v : Word),
    (w.toNat < 32768 →
      resolveRegIndex (Operand.ofWord w) = .ok (.literal w) ∧
      s.regWrite (.literal w) v = .error (.invalidRegister w)) ∧
    (∀ i : Fin 8, w.toNat = 32768 + i.val →
      resolveRegIndex (Operand.ofWord w) = .ok (.index i) ∧
      s.regWrite (.index i) v = .ok { s with x := s.x.set i v }) ∧
    (32776 ≤ w.toNat → resolveRegIndex (Operand.ofWord w) = .error (.invalidOperand w))

/-- R66 and R45: a RawAddress descriptor is not checked before its write, and the generic write takes
it as an address, a register or a fault (its kind and value are the spec's choice, D10 and D14). -/
def Obligations.GenericWriteOnEveryDescriptor : Prop :=
  ∀ (s : State) (d v : Word),
    (resolveRaw (Operand.ofWord d)).toWord = d ∧
    (∀ a : Addr, d.toNat = a.toNat →
      s.genericWrite (resolveRaw (Operand.ofWord d)) v = .ok (s.writeMem a v)) ∧
    (∀ i : Fin 8, d.toNat = 32768 + i.val →
      s.genericWrite (resolveRaw (Operand.ofWord d)) v = .ok { s with x := s.x.set i v }) ∧
    (32776 ≤ d.toNat →
      s.genericWrite (resolveRaw (Operand.ofWord d)) v = .error (.invalidOperand d))

/-- R60, R61, R68: decoding the words of a well-formed instruction gives it back, whatever follows
them and whatever the registers hold. -/
def Obligations.DecodeOfEncodeIsIdentity : Prop :=
  ∀ (x : RegBank) (i : Instr) (rest : List Word),
    i.wf = true → decode x (encode i ++ rest) = .ok (i, rest)

/-- R69, R70, R71: whatever the decoder reads is well formed, its operand words are those of the
encoding, and its opcode word resolves to the encoding's opcode. -/
def Obligations.DecodedWordsAreTheEncoding : Prop :=
  ∀ (x : RegBank) (w0 : Word) (ws rest : List Word) (i : Instr),
    decode x (w0 :: ws) = .ok (i, rest) →
    i.wf = true ∧ ws = i.operands.map Operand.toWord ++ rest ∧
    (w0 = i.opcode ∨ ∃ r : Fin 8, w0.toNat = 32768 + r.val ∧ x[r] = i.opcode)

/-- R69, R70 (a), (b): for every opcode word, literal or register-encoded, and its resolved opcode: the
decoder rejects the opcode as undefined exactly for 20 and for 22 and above, and where the map gives it
a row it reads an instruction exactly when the row's operand words are there, and else says that the
words are truncated. An opcode word is rejected as invalid exactly from 32776 up. -/
def Obligations.DecoderRejectsByName : Prop :=
  ∀ (x : RegBank) (w0 : Word) (ws : List Word),
    (∀ op, (w0.toNat < 32768 ∧ op = w0 ∨ ∃ r : Fin 8, w0.toNat = 32768 + r.val ∧ op = x[r]) →
      (decode x (w0 :: ws) = .error (.undefinedOpcode op) ↔ op.toNat = 20 ∨ 22 ≤ op.toNat) ∧
      ∀ modes, operandModes op = some modes →
        (decode x (w0 :: ws) = .error .truncated ↔ ws.length < modes.length) ∧
        ((∃ i rest, decode x (w0 :: ws) = .ok (i, rest)) ↔ modes.length ≤ ws.length)) ∧
    (∀ w, decode x (w0 :: ws) = .error (.invalidOpcodeWord w) ↔ 32776 ≤ w0.toNat ∧ w = w0)

/-- R68: words written out from the opcode map, one of each family, decode to their instruction. -/
def Obligations.WrittenOutWordsDecode : Prop :=
  decode (Vector.replicate 8 0) [1, 32768, 32771] = .ok (.set (.reg 0) (.reg 3), []) ∧
  decode (Vector.replicate 8 0) [16, 100, 32769] = .ok (.wmem (.lit 100) (.reg 1), []) ∧
  decode (Vector.replicate 8 0) [5, 32770, 7, 3] = .ok (.gt (.reg 2) (.lit 7) (.lit 3), []) ∧
  decode (Vector.replicate 8 0) [9, 32769, 32768, 10] = .ok (.add (.reg 1) (.reg 0) (.lit 10), []) ∧
  decode (Vector.replicate 8 0) [7, 32768, 50] = .ok (.jt (.reg 0) (.lit 50), []) ∧
  decode (Vector.replicate 8 0) [19, 32769] = .ok (.out (.reg 1), []) ∧
  decode (Vector.replicate 8 0) [21] = .ok (.noop, [])

/-! ## The step -/

/-- spec/40_dispatch.md R82, R86: where a well-formed instruction stands at the pc of a Running
machine, the step is its effect. The pc still holds the instruction's own address when `exec` is
called, so the step adds nothing around it. -/
def Obligations.StepRunsTheInstructionAtPc : Prop :=
  ∀ (s : State) (i : Instr),
    s.run = .running → i.wf = true → s.HoldsAtPc i → step s = exec i s

/-- R80: a Running machine always steps to one next state, which emits at most one value, and no step
is enabled from a terminal state. That "no step is enabled" is the outcome `fault` of a step is the
model's choice (notes/assumptions/4.md). -/
def Obligations.StepIsTotalFromRunningOnly : Prop :=
  ∀ s : State,
    (s.run = .running →
      ∃ t, step s = .next t ∧ (t.outlog = s.outlog ∨ ∃ v, t.outlog = s.outlog ++ [v])) ∧
    (s.run = .halted → step s = .fault .stepWhileHalted) ∧
    (s.run = .faulted → step s = .fault .stepWhileFaulted)

/-- R69: the opcode is the opcode word resolved in Value mode, before any opcode test. -/
def Obligations.OpcodeWordIsValueMode : Prop :=
  ∀ (s : State) (w0 : Word), s.run = .running → s.memRead s.pc = .ok w0 →
    (w0.toNat < 32768 → s.fetchOpcode = .ok w0) ∧
    (∀ r : Fin 8, w0.toNat = 32768 + r.val → s.fetchOpcode = .ok s.x[r]) ∧
    (32776 ≤ w0.toNat → step s = .next (s.raise (.invalidOperand w0)))

/-- spec/45_system_and_output.md R173: a resolved opcode of 20, or of 22 and above, faults, and no
operand word is read: the words after the opcode word may be unreadable. -/
def Obligations.UndefinedOpcodeFaults : Prop :=
  ∀ (s : State) (op : Word), s.run = .running → s.fetchOpcode = .ok op →
    (op.toNat = 20 ∨ 22 ≤ op.toNat) → step s = .next (s.raise (.undefinedOpcode op))

/-- R82, R85 items 1 and 4: the faults of reading an instruction's words come in the order of the
words, each word's UnloadedRead before its InvalidOperand, and before those of every later word. The
order is the choice the spec makes in D10. -/
def Obligations.FetchFaultsInWordOrder : Prop :=
  ∀ s : State, s.run = .running →
    (∀ c, s.memRead s.pc = .error c → step s = .next (s.raise c)) ∧
    ∀ (op : Word) (modes : List Mode), s.fetchOpcode = .ok op → operandModes op = some modes →
      ∀ k < modes.length,
        (∀ j < k, ∃ w, s.memRead (s.pc + BitVec.ofNat 15 (j + 1)) = .ok w ∧
          (w.toNat < 32776 ∨ modes[j]? = some .rawAddress)) →
        (∀ c, s.memRead (s.pc + BitVec.ofNat 15 (k + 1)) = .error c → step s = .next (s.raise c)) ∧
        (∀ w, s.memRead (s.pc + BitVec.ofNat 15 (k + 1)) = .ok w → 32776 ≤ w.toNat →
          modes[k]? ≠ some .rawAddress → step s = .next (s.raise (.invalidOperand w)))

/-! ## Faults -/

/-- R84, R31: what taking a fault records, and that it changes nothing else (the spec's choices D10,
D21). -/
def Obligations.RaiseRecordsKindValueAddress : Prop :=
  ∀ (s : State) (c : FaultCause),
    (s.raise c).run = .faulted ∧
    (s.raise c).fault = { kind := c.kind, value := c.value, faultPc := s.pc } ∧
    (s.raise c).cfg = s.cfg ∧ (s.raise c).mem = s.mem ∧ (s.raise c).x = s.x ∧
    (s.raise c).stack = s.stack ∧ (s.raise c).pc = s.pc ∧ (s.raise c).outlog = s.outlog ∧
    (s.raise c).traceEn = s.traceEn

/-- R84, R186: faults are precise. A step that ends in Faulted leaves everything but the run state and
the record as it was before the instruction, and the record names the instruction's address (the
spec's choices D10, D21). -/
def Obligations.FaultsArePrecise : Prop :=
  ∀ s t : State, step s = .next t → t.run = .faulted →
    t = { s with run := .faulted, fault := t.fault } ∧ t.fault.faultPc = s.pc ∧
    t.fault.kind ≠ .noFault

/-- R181, R30, R31, R198: the code and the value that each cause reports on the status ports, and the
exit status of a run's end. The numbers are the spec's own labels (D14). That a run that is still
Running has no exit status is the model's choice (notes/assumptions/15.md). -/
def Obligations.StatusPortsAndExitStatus : Prop :=
  ∀ (s : State) (c : FaultCause) (w : Word) (a : Addr),
    (s.raise (.invalidOperand w)).status = ⟨2, 1, w, s.pc⟩ ∧
    (s.raise (.undefinedOpcode w)).status = ⟨2, 2, w, s.pc⟩ ∧
    (s.raise (.stackUnderflow w)).status = ⟨2, 3, w, s.pc⟩ ∧
    (s.raise .divideByZero).status = ⟨2, 4, 11, s.pc⟩ ∧
    (s.raise (.invalidRegister w)).status = ⟨2, 5, w, s.pc⟩ ∧
    (s.raise (.unloadedRead a)).status = ⟨2, 6, BitVec.ofNat 16 a.toNat, s.pc⟩ ∧
    (s.raise (.stackOverflow w)).status = ⟨2, 7, w, s.pc⟩ ∧
    s.enterHalted.status.state = 1 ∧ s.enterHalted.exitStatus = some 0 ∧
    (s.raise c).exitStatus = some (s.raise c).status.faultKind.toNat ∧
    (s.run = .running → s.status.state = 0 ∧ s.exitStatus = none)

/-- R85 items 4 to 6, and the line "Exceptions, in order" of every instruction rule: an instruction to
which a fault applies takes the first one its rule lists. The order is the spec's choice (D10). -/
def Obligations.InstructionTakesItsFirstFault : Prop :=
  ∀ (i : Instr) (s : State) (c : FaultCause),
    firstFault i s = some c → exec i s = .next (s.raise c)

/-- R85, R221: an instruction to which no fault applies runs: it leaves the record alone, and the run
state too unless it is `halt`. -/
def Obligations.InstructionRunsWhereNoFaultApplies : Prop :=
  ∀ (i : Instr) (s : State), firstFault i s = none →
    ∃ t, exec i s = .next t ∧ t.fault = s.fault ∧
      t.run = (if i = .halt then .halted else s.run)

/-! ## Invariants -/

/-- Every step keeps the invariant: canonical memory, R23's range of registers and stack, R24's
capacity, R31's record, R171's output range. -/
def Obligations.EveryStepKeepsTheInvariant : Prop :=
  ∀ s t : State, s.Inv → step s = .next t → t.Inv

/-- The invariant holds after reset: a sanity statement about the one state `State.reset`, whose
configuration, image and trace input are the model's choice (notes/assumptions/2.md). -/
def Obligations.ResetStateMeetsTheInvariant : Prop := State.reset.Inv

/-- R23, R36: the invariant holds after reset with every image, configuration and trace input. -/
def Obligations.EveryImageResetsIntoTheInvariant : Prop :=
  ∀ (cfg : Config) (image : List Word) (traceEn : Bool) (s : State),
    State.resetWith cfg image traceEn = some s → s.Inv

/-- R26: only the image can place a word ≥ 32768 in memory. From a state in the semantic range, a step
changes a memory word only to a word < 32768. -/
def Obligations.StepsStoreOnlySemanticValues : Prop :=
  ∀ s t : State, s.SemanticRange → step s = .next t →
    ∀ (a : Nat) (w : Word), t.mem.read? a = some w → 32768 ≤ w.toNat → s.mem.read? a = some w

/-! ## Frames -/

/-- R21: an instruction writes no register but its destination register, and R21's ten instructions
and every memory destination write none. -/
def Obligations.RegistersOtherThanTheDestinationKeep : Prop :=
  ∀ (i : Instr) (s t : State), exec i s = .next t →
    ∀ r : Fin 8, destReg i ≠ some r → t.reg r = s.reg r

/-- R47: an instruction changes no memory word but the one at its store address, and no `mdef` bit but
that word's. -/
def Obligations.MemoryOutsideTheStoreKeeps : Prop :=
  ∀ (i : Instr) (s t : State), exec i s = .next t →
    ∀ a : Addr, storeAddr i s ≠ some a → t.memRead a = s.memRead a ∧ t.mdef a = s.mdef a

/-- R25: the Execution Stack is reached, to write or to read, only by `push`, `pop`, `call` and `ret`. The
others keep it, and run alike over any other stack. These four change at most its top, and run alike
over any other entries of the same number below the top. -/
def Obligations.OnlyStackInstructionsReachTheStack : Prop :=
  ∀ (i : Instr) (s t : State), exec i s = .next t →
    (usesStack i = false →
      t.stack = s.stack ∧ ∀ st, exec i (s.withStack st) = .next (t.withStack st)) ∧
    (t.stack = s.stack ∨ (∃ v, t.stack = v :: s.stack) ∨ ∃ v, s.stack = v :: t.stack) ∧
    ∀ (v : Word) (rest st : List Word), s.stack = v :: rest → st.length = rest.length →
      ∃ above, t.stack = above ++ rest ∧
        exec i (s.withStack (v :: st)) = .next (t.withStack (above ++ st))

/-- R32, R171: the output log is appended to by `out` alone, and only outside trace mode. -/
def Obligations.OnlyOutAppendsToTheOutputLog : Prop :=
  ∀ (i : Instr) (s t : State), exec i s = .next t →
    (t.outlog = s.outlog ∨
      (s.traceEn = false ∧ ∃ ch v, i = .out ch ∧ t.outlog = s.outlog ++ [v]))

/-- R7, R33: no step changes the machine's parameters or its trace latch. That the parameters stand in
State is the model's choice (notes/assumptions/1.md). -/
def Obligations.StepsKeepConfigurationAndTraceLatch : Prop :=
  ∀ s t : State, step s = .next t → t.cfg = s.cfg ∧ t.traceEn = s.traceEn

/-- R30, R170: a step leaves Running only into Halted, by `halt`, with the pc at the halt's own
address, or into Faulted; the record is written only on the way into Faulted (R31). -/
def Obligations.RunStateChangesOnlyByHaltOrFault : Prop :=
  ∀ s t : State, step s = .next t →
    (t.run = .halted → s.fetch = .ok .halt ∧ t = { s with run := .halted }) ∧
    (t.run ≠ .faulted → t.fault = s.fault)

/-! ## Registers, memory and stack -/

/-- R21, R22: a register write is seen by the next read in Value mode, and touches no other register. -/
def Obligations.RegisterWriteIsSeenAtOnce : Prop :=
  ∀ (s : State) (i j : Fin 8) (v : Word),
    (s.writeReg i v).resolveValue (.reg i) = .ok v ∧
    (j ≠ i → (s.writeReg i v).resolveValue (.reg j) = s.resolveValue (.reg j))

/-- spec/20_memory.md R42, R43, R50, R53: a memory write is seen by the next read or fetch of that address,
makes it defined, and leaves every other address alone. The canonical form it keeps is the model's
choice (notes/assumptions/3.md). -/
def Obligations.MemoryWriteIsSeenAtOnce : Prop :=
  ∀ (s : State) (a b : Addr) (v : Word),
    (s.writeMem a v).memRead a = .ok v ∧ (s.writeMem a v).mdef a = true ∧
    (b ≠ a → (s.writeMem a v).memRead b = s.memRead b ∧ (s.writeMem a v).mdef b = s.mdef b) ∧
    (s.mem.wf = true → (s.writeMem a v).mem.wf = true)

/-- R42: what a read of a word that is neither loaded nor written gives under each policy, and that a
defined word is read under both. The two policies are the spec's own (D3). -/
def Obligations.UnloadedReadFollowsThePolicy : Prop :=
  ∀ (s : State) (a : Addr),
    (s.mdef a = false → s.cfg.unloaded = .fault → s.memRead a = .error (.unloadedRead a)) ∧
    (s.mdef a = false → s.cfg.unloaded = .zero → s.memRead a = .ok 0) ∧
    (s.mdef a = true → ∃ w, s.mem.read? a.toNat = some w ∧ s.memRead a = .ok w)

/-! ## Data movement (spec/41_data_movement.md) -/

/-- R100: `set dst src`. That a literal destination faults is the choice the spec makes in D6. -/
def Obligations.SetWritesItsRegister : Prop :=
  ∀ (s : State) (dst src : Operand),
    encode (.set dst src) = [1, dst.toWord, src.toWord] ∧
    (∀ w, dst = .inv w → exec (.set dst src) s = .next (s.raise (.invalidOperand w))) ∧
    (∀ w, (∀ w', dst ≠ .inv w') → src = .inv w →
      exec (.set dst src) s = .next (s.raise (.invalidOperand w))) ∧
    ∀ v, s.resolveValue src = .ok v →
      (s.SemanticRange → v.toNat < 32768) ∧
      (∀ m, dst = .lit m →
        exec (.set dst src) s = .next (s.raise (.invalidRegister dst.toWord))) ∧
      (∀ i, dst = .reg i →
        exec (.set dst src) s = .next ((s.writeReg i v).withPc (s.pc + 3)))

/-- R101, R24: `push src`. That a finite stack faults when full is the choice the spec makes in D9. -/
def Obligations.PushPutsTheValueOnTop : Prop :=
  ∀ (s : State) (src : Operand),
    encode (.push src) = [2, src.toWord] ∧
    (∀ w, src = .inv w → exec (.push src) s = .next (s.raise (.invalidOperand w))) ∧
    ∀ v, s.resolveValue src = .ok v →
      (s.cfg.stackCap = some s.stack.length →
        exec (.push src) s = .next (s.raise (.stackOverflow 2))) ∧
      (s.cfg.stackCap ≠ some s.stack.length →
        exec (.push src) s = .next ((s.withStack (v :: s.stack)).withPc (s.pc + 2)))

/-- R102: `pop dst`. The stack check comes before the destination check, and a fault keeps the
entry: the choice the spec makes in D10. -/
def Obligations.PopWritesTheTopToItsDestination : Prop :=
  ∀ (s : State) (dst : Operand),
    encode (.pop dst) = [3, dst.toWord] ∧
    (s.stack = [] → exec (.pop dst) s = .next (s.raise (.stackUnderflow 3))) ∧
    ∀ v rest, s.stack = v :: rest →
      (∀ w, dst = .inv w → exec (.pop dst) s = .next (s.raise (.invalidOperand w))) ∧
      (∀ i, dst = .reg i → exec (.pop dst) s =
        .next (((s.withStack rest).writeReg i v).withPc (s.pc + 2))) ∧
      (∀ m, dst = .lit m → exec (.pop dst) s =
        .next (((s.withStack rest).writeMem m v).withPc (s.pc + 2)))

/-- R103: `rmem dst srcAddr`. The word read is resolved in Value mode, so no word ≥ 32768 reaches a
register. That a literal destination faults is the choice the spec makes in D6. -/
def Obligations.RmemReadsAndResolvesTheWord : Prop :=
  ∀ (s : State) (dst srcAddr : Operand),
    encode (.rmem dst srcAddr) = [15, dst.toWord, srcAddr.toWord] ∧
    (∀ w, dst = .inv w → exec (.rmem dst srcAddr) s = .next (s.raise (.invalidOperand w))) ∧
    (∀ w, (∀ w', dst ≠ .inv w') → srcAddr = .inv w →
      exec (.rmem dst srcAddr) s = .next (s.raise (.invalidOperand w))) ∧
    ∀ a, (∀ w', dst ≠ .inv w') → s.resolveValue srcAddr = .ok a →
      (∀ c, s.memRead (BitVec.ofNat 15 (a.toNat % 32768)) = .error c →
        exec (.rmem dst srcAddr) s = .next (s.raise c)) ∧
      ∀ m, s.memRead (BitVec.ofNat 15 (a.toNat % 32768)) = .ok m →
        (32776 ≤ m.toNat → exec (.rmem dst srcAddr) s = .next (s.raise (.invalidOperand m))) ∧
        ∀ v, s.resolveValue (Operand.ofWord m) = .ok v →
          (s.SemanticRange → v.toNat < 32768) ∧
          (∀ n, dst = .lit n →
            exec (.rmem dst srcAddr) s = .next (s.raise (.invalidRegister dst.toWord))) ∧
          (∀ i, dst = .reg i →
            exec (.rmem dst srcAddr) s = .next ((s.writeReg i v).withPc (s.pc + 3)))

/-- R104: `wmem dstAddr src`. -/
def Obligations.WmemStoresTheValue : Prop :=
  ∀ (s : State) (dstAddr src : Operand),
    encode (.wmem dstAddr src) = [16, dstAddr.toWord, src.toWord] ∧
    (∀ w, dstAddr = .inv w → exec (.wmem dstAddr src) s = .next (s.raise (.invalidOperand w))) ∧
    ∀ a, s.resolveValue dstAddr = .ok a →
      (∀ w, src = .inv w → exec (.wmem dstAddr src) s = .next (s.raise (.invalidOperand w))) ∧
      ∀ v, s.resolveValue src = .ok v →
        (s.SemanticRange → v.toNat < 32768) ∧
        exec (.wmem dstAddr src) s =
          .next ((s.writeMem (BitVec.ofNat 15 (a.toNat % 32768)) v).withPc (s.pc + 3))

/-- R105: a push followed directly by a pop leaves the generic write done and the stack as it was, and
pushes and pops are LIFO. -/
def Obligations.PushThenPopIsAGenericWrite : Prop :=
  (∀ (s t u : State) (src dst : Operand),
    s.run = .running → exec (.push src) s = .next t → t.run = .running →
    exec (.pop dst) t = .next u → u.run = .running →
    ∃ v g, s.resolveValue src = .ok v ∧ s.genericWrite dst v = .ok g ∧
      u = g.withPc (s.pc + 4) ∧ u.stack = s.stack) ∧
  ∀ (s t u v w : State) (a b : Operand) (m0 m1 : Addr),
    s.run = .running → m0 ≠ m1 →
    exec (.push a) s = .next t → t.run = .running →
    exec (.push b) t = .next u → u.run = .running →
    exec (.pop (.lit m0)) u = .next v → exec (.pop (.lit m1)) v = .next w →
    ∃ va vb, s.resolveValue a = .ok va ∧ s.resolveValue b = .ok vb ∧
      w.memRead m0 = .ok vb ∧ w.memRead m1 = .ok va ∧ w.stack = s.stack

/-! ## Comparison (spec/42_compare.md) -/

/-- R120: `eq dst a b`. -/
def Obligations.EqWritesOneWhenEqual : Prop :=
  TernaryRule .eq 4 (fun a b => if a = b then 1 else 0)

/-- R121: `gt dst a b`, unsigned and strict. -/
def Obligations.GtWritesOneWhenGreater : Prop :=
  TernaryRule .gt 5 (fun a b => if a > b then 1 else 0)

/-! ## Arithmetic and logic (spec/43_arith_logic.md) -/

/-- R130: `add dst a b`. -/
def Obligations.AddWritesTheSumModulo32768 : Prop :=
  TernaryRule .add 9 (fun a b => (a + b) % 32768)

/-- R131: `mult dst a b`. -/
def Obligations.MultWritesTheProductModulo32768 : Prop :=
  TernaryRule .mult 10 (fun a b => (a * b) % 32768)

/-- R132: `mod dst a b`. The zero check comes before the destination check; that a zero divisor raises
DivideByZero is the choice the spec makes in D8. -/
def Obligations.ModWritesTheRemainder : Prop :=
  ∀ (s : State) (dst a b : Operand),
    encode (.mod dst a b) = [11, dst.toWord, a.toWord, b.toWord] ∧
    (∀ w, a = .inv w → exec (.mod dst a b) s = .next (s.raise (.invalidOperand w))) ∧
    (∀ va w, s.resolveValue a = .ok va → b = .inv w →
      exec (.mod dst a b) s = .next (s.raise (.invalidOperand w))) ∧
    ∀ va vb, s.resolveValue a = .ok va → s.resolveValue b = .ok vb →
      (vb.toNat = 0 → exec (.mod dst a b) s = .next (s.raise .divideByZero)) ∧
      (vb.toNat ≠ 0 →
        (va.toNat < 32768 → va.toNat % vb.toNat % 32768 = va.toNat % vb.toNat) ∧
        (∀ w, dst = .inv w → exec (.mod dst a b) s = .next (s.raise (.invalidOperand w))) ∧
        (∀ i, dst = .reg i → exec (.mod dst a b) s = .next ((s.writeReg i
          (BitVec.ofNat 16 (va.toNat % vb.toNat % 32768))).withPc (s.pc + 4))) ∧
        (∀ m, dst = .lit m → exec (.mod dst a b) s = .next ((s.writeMem m
          (BitVec.ofNat 16 (va.toNat % vb.toNat % 32768))).withPc (s.pc + 4))))

/-- R133: `and dst a b`; on the semantic range every masking that the source lists gives the same
(spec/90_conflicts.md C1, D7). -/
def Obligations.AndWritesTheMaskedConjunction : Prop :=
  TernaryRule .and 12 (fun a b => (a % 32768) &&& (b % 32768)) ∧
  ∀ a b : Nat, a < 32768 → b < 32768 →
    (a % 32768) &&& (b % 32768) = a &&& b ∧ a &&& (b % 32768) = a &&& b ∧
    (a &&& b) % 32768 = a &&& b

/-- R134: `or dst a b`; on the semantic range every masking that the source lists gives the same
(spec/90_conflicts.md C1, D7). -/
def Obligations.OrWritesTheMaskedDisjunction : Prop :=
  TernaryRule .or 13 (fun a b => (a % 32768) ||| (b % 32768)) ∧
  ∀ a b : Nat, a < 32768 → b < 32768 →
    (a % 32768) ||| (b % 32768) = a ||| b ∧ a ||| (b % 32768) = a ||| b ∧
    (a ||| b) % 32768 = a ||| b

/-- R135: `not dst a`; on the semantic range the value is 32767 - a, and equally a ^ 0x7FFF. -/
def Obligations.NotWritesTheComplement : Prop :=
  ∀ (s : State) (dst a : Operand),
    encode (.not dst a) = [14, dst.toWord, a.toWord] ∧
    (∀ w, a = .inv w → exec (.not dst a) s = .next (s.raise (.invalidOperand w))) ∧
    ∀ va, s.resolveValue a = .ok va →
      (va.toNat < 32768 → (65535 - va.toNat) % 32768 = 32767 - va.toNat ∧
        32767 - va.toNat = va.toNat ^^^ 0x7FFF) ∧
      (∀ w, dst = .inv w → exec (.not dst a) s = .next (s.raise (.invalidOperand w))) ∧
      (∀ i, dst = .reg i → exec (.not dst a) s = .next ((s.writeReg i
        (BitVec.ofNat 16 ((65535 - va.toNat) % 32768))).withPc (s.pc + 3))) ∧
      (∀ m, dst = .lit m → exec (.not dst a) s = .next ((s.writeMem m
        (BitVec.ofNat 16 ((65535 - va.toNat) % 32768))).withPc (s.pc + 3)))

/-- R136: adding (32768 - k) mod 32768 subtracts k modulo 32768, and the complement plus 1 is the
negation. -/
def Obligations.AddingTheComplementSubtracts : Prop :=
  ∀ (s t : State) (a : Operand) (va : Word) (k : BitVec 15) (i : Fin 8),
    s.resolveValue a = .ok va → va.toNat < 32768 →
    (exec (.add (.reg i) a (.lit (BitVec.ofNat 15 (32768 - k.toNat)))) s = .next t →
      (t.reg i).toNat = if k.toNat ≤ va.toNat then va.toNat - k.toNat
        else va.toNat + 32768 - k.toNat) ∧
    (∀ u, exec (.not (.reg i) a) s = .next u → exec (.add (.reg i) (.reg i) (.lit 1)) u = .next t →
      (t.reg i).toNat = (32768 - va.toNat) % 32768)

/-! ## Control transfer (spec/44_control_transfer.md) -/

/-- R151, R150: `jmp target`. -/
def Obligations.JmpSetsThePc : Prop :=
  ∀ (s : State) (target : Operand),
    encode (.jmp target) = [6, target.toWord] ∧
    (∀ w, target = .inv w → exec (.jmp target) s = .next (s.raise (.invalidOperand w))) ∧
    ∀ t, s.resolveValue target = .ok t →
      exec (.jmp target) s = .next (s.withPc (BitVec.ofNat 15 (t.toNat % 32768)))

/-- R152: `jt cond target`. That the target of an untaken jump is resolved is the choice the spec makes
in D11. -/
def Obligations.JtJumpsOnNonZero : Prop := BranchRule .jt 7 (fun c => c ≠ 0)

/-- R153: `jf cond target`. That the target of an untaken jump is resolved is the choice the spec makes
in D11. -/
def Obligations.JfJumpsOnZero : Prop := BranchRule .jf 8 (fun c => c = 0)

/-- R154: `call target` pushes the address after its two words, wrapped (the choice the spec makes in
D5), and jumps. -/
def Obligations.CallPushesTheReturnAddress : Prop :=
  ∀ (s : State) (target : Operand),
    encode (.call target) = [17, target.toWord] ∧
    (∀ w, target = .inv w → exec (.call target) s = .next (s.raise (.invalidOperand w))) ∧
    ∀ t, s.resolveValue target = .ok t →
      (s.cfg.stackCap = some s.stack.length →
        exec (.call target) s = .next (s.raise (.stackOverflow 17))) ∧
      (s.cfg.stackCap ≠ some s.stack.length →
        exec (.call target) s =
          .next ((s.withStack (BitVec.ofNat 16 ((s.pc.toNat + 2) % 32768) :: s.stack)).withPc
            (BitVec.ofNat 15 (t.toNat % 32768))))

/-- R155: `ret` jumps to the popped address; an empty stack faults and does not halt. -/
def Obligations.RetJumpsToThePoppedAddress : Prop :=
  ∀ s : State,
    encode .ret = [18] ∧
    (s.stack = [] → exec .ret s = .next (s.raise (.stackUnderflow 18))) ∧
    ∀ v rest, s.stack = v :: rest →
      exec .ret s = .next ((s.withStack rest).withPc (BitVec.ofNat 15 (v.toNat % 32768)))

/-- R156: a `ret` from a state whose stack is as the `call` left it returns to the word after the
call's two words, with the stack as before the call. -/
def Obligations.RetUndoesCall : Prop :=
  ∀ (s t u : State) (target : Operand),
    s.run = .running → exec (.call target) s = .next t → t.run = .running → u.stack = t.stack →
    exec .ret u = .next { u with stack := s.stack, pc := s.pc + 2 }

/-! ## System and output (spec/45_system_and_output.md) -/

/-- R170: `halt` enters Halted at its own address, wherever the opcode word resolves to 0: a word 0, a
register that holds 0, or an unloaded word under policy Zero. A program whose first word is 0 ends at
once, with no output and exit status 0, whatever words follow. That the pc stays is the choice the
spec makes in D15. -/
def Obligations.HaltEntersHaltedAtItsAddress : Prop :=
  (∀ s : State, encode .halt = [0] ∧ exec .halt s = .next { s with run := .halted }) ∧
  (∀ s : State, s.run = .running → s.fetchOpcode = .ok 0 →
    step s = .next { s with run := .halted }) ∧
  ∀ (cfg : Config) (rest : List Word) (traceEn : Bool) (s : State),
    State.resetWith cfg (0 :: rest) traceEn = some s →
    step s = .next { s with run := .halted } ∧ s.outlog = [] ∧
      s.enterHalted.exitStatus = some 0

/-- R171: `out ch` emits the value outside trace mode; in trace mode it only advances, and an invalid
operand faults in both. The choices the spec makes in D12 and D16. -/
def Obligations.OutEmitsOutsideTraceMode : Prop :=
  ∀ (s : State) (ch : Operand),
    encode (.out ch) = [19, ch.toWord] ∧
    (∀ w, ch = .inv w → exec (.out ch) s = .next (s.raise (.invalidOperand w))) ∧
    ∀ v, s.resolveValue ch = .ok v →
      (s.traceEn = false →
        exec (.out ch) s = .next ({ s with outlog := s.outlog ++ [v] }.withPc (s.pc + 2)) ∧
        s.outputEvents ({ s with outlog := s.outlog ++ [v] }.withPc (s.pc + 2)) = [v]) ∧
      (s.traceEn = true → exec (.out ch) s = .next (s.withPc (s.pc + 2)))

/-- R172: `noop` only advances the pc, from 32767 to 0 too. -/
def Obligations.NoopAdvancesThePc : Prop :=
  ∀ s : State, encode .noop = [21] ∧
    exec .noop s = .next (s.withPc (BitVec.ofNat 15 ((s.pc.toNat + 1) % 32768)))

/-! ## Reset and the host (spec/70_reset_and_hazards.md) -/

/-- R36, R210: every piece of state after reset with an image of length L; a word beyond the image
reads as UNLOADED_POLICY says (D3). -/
def Obligations.ResetLoadsTheImage : Prop :=
  ∀ (cfg : Config) (image : List Word) (traceEn : Bool), image.length ≤ 32768 →
    ∃ s, State.resetWith cfg image traceEn = some s ∧ s.cfg = cfg ∧
      (∀ a : Addr, s.mdef a = decide (a.toNat < image.length)) ∧
      (∀ (a : Addr) (w : Word), image[a.toNat]? = some w → s.memRead a = .ok w) ∧
      (∀ a : Addr, image.length ≤ a.toNat →
        s.memRead a = match cfg.unloaded with
          | .fault => .error (.unloadedRead a)
          | .zero => .ok 0) ∧
      (∀ i : Fin 8, s.x[i] = 0) ∧ s.stack = [] ∧ s.pc = 0 ∧ s.run = .running ∧
      s.fault = { kind := .noFault, value := 0, faultPc := 0 } ∧ s.outlog = [] ∧
      s.traceEn = traceEn

/-- R41, R211: word k of a byte stream is byte 2k + 256 × byte 2k+1; an odd length and more than
32768 words are refused (the choice the spec makes in D2); and what the first step of an empty image
does. -/
def Obligations.ByteStreamsLoadLittleEndian : Prop :=
  ∀ (cfg : Config) (bytes : List Byte) (traceEn : Bool),
    (bytes.length % 2 = 1 → State.resetFromBytes cfg bytes traceEn = none) ∧
    (65536 < bytes.length → State.resetFromBytes cfg bytes traceEn = none) ∧
    (bytes.length % 2 = 0 → bytes.length ≤ 65536 →
      ∃ image, image.length = bytes.length / 2 ∧
        State.resetFromBytes cfg bytes traceEn = State.resetWith cfg image traceEn ∧
        State.resetWith cfg image traceEn ≠ none ∧
        ∀ (k : Nat) (lo hi : Byte), bytes[2 * k]? = some lo → bytes[2 * k + 1]? = some hi →
          image[k]? = some (BitVec.ofNat 16 (lo.toNat + 256 * hi.toNat))) ∧
    ∀ s, State.resetFromBytes cfg [] traceEn = some s →
      step s = match cfg.unloaded with
        | .fault => .next (s.raise (.unloadedRead 0))
        | .zero => .next { s with run := .halted }

/-! ## Comparing machines -/

/-- R33, R192: trace mode has no effect but on output. Two machines that differ only in the trace
latch and the output log step alike, and a program cannot tell whether output is enabled. -/
def Obligations.TraceModeAffectsOnlyOutput : Prop :=
  ∀ (s t : State) (traceEn : Bool) (log : List Word), step s = .next t →
    ∃ log', step (s.withTrace traceEn log) = .next (t.withTrace traceEn log') ∧
      (traceEn = true → log' = log) ∧
      (traceEn = false → s.traceEn = false → log' = log ++ s.outputEvents t)

/-- R27, D3: a step that raises no UnloadedRead under policy Fault is the step under policy Zero. -/
def Obligations.FaultPolicyStepsAreZeroPolicySteps : Prop :=
  ∀ s t : State, s.cfg.unloaded = .fault → step s = .next t →
    t.run ≠ .faulted ∨ t.fault.kind ≠ .unloadedRead →
    step (s.withPolicy .zero) = .next (t.withPolicy .zero)

/-- R24, D9: a step that raises no StackOverflow under a finite capacity is the step of the unbounded
stack. -/
def Obligations.CappedStepsAreUnboundedSteps : Prop :=
  ∀ s t : State, step s = .next t → t.run ≠ .faulted ∨ t.fault.kind ≠ .stackOverflow →
    step (s.withCap none) = .next (t.withCap none)
end

