-- ==== Sys2Proof/Laws/State.lean ====
section
/-! SUPPORT. Each field of the state under each update: one lemma per field per update, true by
unfolding, so that no later proof unfolds a record update. -/

namespace Sys2Proof.Machine

variable (s : State)

/-! ### `writeReg` -/

@[simp] theorem State.writeReg_cfg (i : Fin 8) (v : Word) :
    (s.writeReg i v).cfg = s.cfg := rfl
@[simp] theorem State.writeReg_mem (i : Fin 8) (v : Word) :
    (s.writeReg i v).mem = s.mem := rfl
@[simp] theorem State.writeReg_x (i : Fin 8) (v : Word) :
    (s.writeReg i v).x = s.x.set i v := rfl
@[simp] theorem State.writeReg_stack (i : Fin 8) (v : Word) :
    (s.writeReg i v).stack = s.stack := rfl
@[simp] theorem State.writeReg_pc (i : Fin 8) (v : Word) :
    (s.writeReg i v).pc = s.pc := rfl
@[simp] theorem State.writeReg_run (i : Fin 8) (v : Word) :
    (s.writeReg i v).run = s.run := rfl
@[simp] theorem State.writeReg_fault (i : Fin 8) (v : Word) :
    (s.writeReg i v).fault = s.fault := rfl
@[simp] theorem State.writeReg_outlog (i : Fin 8) (v : Word) :
    (s.writeReg i v).outlog = s.outlog := rfl
@[simp] theorem State.writeReg_traceEn (i : Fin 8) (v : Word) :
    (s.writeReg i v).traceEn = s.traceEn := rfl

/-! ### `writeMem` -/

@[simp] theorem State.writeMem_cfg (a : Addr) (v : Word) :
    (s.writeMem a v).cfg = s.cfg := rfl
@[simp] theorem State.writeMem_mem (a : Addr) (v : Word) :
    (s.writeMem a v).mem = s.mem.write a.toNat v := rfl
@[simp] theorem State.writeMem_x (a : Addr) (v : Word) :
    (s.writeMem a v).x = s.x := rfl
@[simp] theorem State.writeMem_stack (a : Addr) (v : Word) :
    (s.writeMem a v).stack = s.stack := rfl
@[simp] theorem State.writeMem_pc (a : Addr) (v : Word) :
    (s.writeMem a v).pc = s.pc := rfl
@[simp] theorem State.writeMem_run (a : Addr) (v : Word) :
    (s.writeMem a v).run = s.run := rfl
@[simp] theorem State.writeMem_fault (a : Addr) (v : Word) :
    (s.writeMem a v).fault = s.fault := rfl
@[simp] theorem State.writeMem_outlog (a : Addr) (v : Word) :
    (s.writeMem a v).outlog = s.outlog := rfl
@[simp] theorem State.writeMem_traceEn (a : Addr) (v : Word) :
    (s.writeMem a v).traceEn = s.traceEn := rfl

/-! ### `withStack` -/

@[simp] theorem State.withStack_cfg (st : List Word) :
    (s.withStack st).cfg = s.cfg := rfl
@[simp] theorem State.withStack_mem (st : List Word) :
    (s.withStack st).mem = s.mem := rfl
@[simp] theorem State.withStack_x (st : List Word) :
    (s.withStack st).x = s.x := rfl
@[simp] theorem State.withStack_stack (st : List Word) :
    (s.withStack st).stack = st := rfl
@[simp] theorem State.withStack_pc (st : List Word) :
    (s.withStack st).pc = s.pc := rfl
@[simp] theorem State.withStack_run (st : List Word) :
    (s.withStack st).run = s.run := rfl
@[simp] theorem State.withStack_fault (st : List Word) :
    (s.withStack st).fault = s.fault := rfl
@[simp] theorem State.withStack_outlog (st : List Word) :
    (s.withStack st).outlog = s.outlog := rfl
@[simp] theorem State.withStack_traceEn (st : List Word) :
    (s.withStack st).traceEn = s.traceEn := rfl

/-! ### `withPc` -/

@[simp] theorem State.withPc_cfg (t : Addr) :
    (s.withPc t).cfg = s.cfg := rfl
@[simp] theorem State.withPc_mem (t : Addr) :
    (s.withPc t).mem = s.mem := rfl
@[simp] theorem State.withPc_x (t : Addr) :
    (s.withPc t).x = s.x := rfl
@[simp] theorem State.withPc_stack (t : Addr) :
    (s.withPc t).stack = s.stack := rfl
@[simp] theorem State.withPc_pc (t : Addr) :
    (s.withPc t).pc = t := rfl
@[simp] theorem State.withPc_run (t : Addr) :
    (s.withPc t).run = s.run := rfl
@[simp] theorem State.withPc_fault (t : Addr) :
    (s.withPc t).fault = s.fault := rfl
@[simp] theorem State.withPc_outlog (t : Addr) :
    (s.withPc t).outlog = s.outlog := rfl
@[simp] theorem State.withPc_traceEn (t : Addr) :
    (s.withPc t).traceEn = s.traceEn := rfl

/-! ### `advance` -/

@[simp] theorem State.advance_cfg (n : Nat) :
    (s.advance n).cfg = s.cfg := rfl
@[simp] theorem State.advance_mem (n : Nat) :
    (s.advance n).mem = s.mem := rfl
@[simp] theorem State.advance_x (n : Nat) :
    (s.advance n).x = s.x := rfl
@[simp] theorem State.advance_stack (n : Nat) :
    (s.advance n).stack = s.stack := rfl
@[simp] theorem State.advance_pc (n : Nat) :
    (s.advance n).pc = s.pc + BitVec.ofNat 15 n := rfl
@[simp] theorem State.advance_run (n : Nat) :
    (s.advance n).run = s.run := rfl
@[simp] theorem State.advance_fault (n : Nat) :
    (s.advance n).fault = s.fault := rfl
@[simp] theorem State.advance_outlog (n : Nat) :
    (s.advance n).outlog = s.outlog := rfl
@[simp] theorem State.advance_traceEn (n : Nat) :
    (s.advance n).traceEn = s.traceEn := rfl

/-! ### `jumpTo` -/

@[simp] theorem State.jumpTo_cfg (t : Word) :
    (s.jumpTo t).cfg = s.cfg := rfl
@[simp] theorem State.jumpTo_mem (t : Word) :
    (s.jumpTo t).mem = s.mem := rfl
@[simp] theorem State.jumpTo_x (t : Word) :
    (s.jumpTo t).x = s.x := rfl
@[simp] theorem State.jumpTo_stack (t : Word) :
    (s.jumpTo t).stack = s.stack := rfl
@[simp] theorem State.jumpTo_pc (t : Word) :
    (s.jumpTo t).pc = addrOf t := rfl
@[simp] theorem State.jumpTo_run (t : Word) :
    (s.jumpTo t).run = s.run := rfl
@[simp] theorem State.jumpTo_fault (t : Word) :
    (s.jumpTo t).fault = s.fault := rfl
@[simp] theorem State.jumpTo_outlog (t : Word) :
    (s.jumpTo t).outlog = s.outlog := rfl
@[simp] theorem State.jumpTo_traceEn (t : Word) :
    (s.jumpTo t).traceEn = s.traceEn := rfl

/-! ### `emit` -/

@[simp] theorem State.emit_cfg (v : Word) :
    (s.emit v).cfg = s.cfg := rfl
@[simp] theorem State.emit_mem (v : Word) :
    (s.emit v).mem = s.mem := rfl
@[simp] theorem State.emit_x (v : Word) :
    (s.emit v).x = s.x := rfl
@[simp] theorem State.emit_stack (v : Word) :
    (s.emit v).stack = s.stack := rfl
@[simp] theorem State.emit_pc (v : Word) :
    (s.emit v).pc = s.pc := rfl
@[simp] theorem State.emit_run (v : Word) :
    (s.emit v).run = s.run := rfl
@[simp] theorem State.emit_fault (v : Word) :
    (s.emit v).fault = s.fault := rfl
@[simp] theorem State.emit_outlog (v : Word) :
    (s.emit v).outlog = s.outlog ++ [v] := rfl
@[simp] theorem State.emit_traceEn (v : Word) :
    (s.emit v).traceEn = s.traceEn := rfl

/-! ### `enterHalted` -/

@[simp] theorem State.enterHalted_cfg :
    (s.enterHalted).cfg = s.cfg := rfl
@[simp] theorem State.enterHalted_mem :
    (s.enterHalted).mem = s.mem := rfl
@[simp] theorem State.enterHalted_x :
    (s.enterHalted).x = s.x := rfl
@[simp] theorem State.enterHalted_stack :
    (s.enterHalted).stack = s.stack := rfl
@[simp] theorem State.enterHalted_pc :
    (s.enterHalted).pc = s.pc := rfl
@[simp] theorem State.enterHalted_run :
    (s.enterHalted).run = .halted := rfl
@[simp] theorem State.enterHalted_fault :
    (s.enterHalted).fault = s.fault := rfl
@[simp] theorem State.enterHalted_outlog :
    (s.enterHalted).outlog = s.outlog := rfl
@[simp] theorem State.enterHalted_traceEn :
    (s.enterHalted).traceEn = s.traceEn := rfl

/-! ### `raise` -/

@[simp] theorem State.raise_cfg (c : FaultCause) :
    (s.raise c).cfg = s.cfg := rfl
@[simp] theorem State.raise_mem (c : FaultCause) :
    (s.raise c).mem = s.mem := rfl
@[simp] theorem State.raise_x (c : FaultCause) :
    (s.raise c).x = s.x := rfl
@[simp] theorem State.raise_stack (c : FaultCause) :
    (s.raise c).stack = s.stack := rfl
@[simp] theorem State.raise_pc (c : FaultCause) :
    (s.raise c).pc = s.pc := rfl
@[simp] theorem State.raise_run (c : FaultCause) :
    (s.raise c).run = .faulted := rfl
@[simp] theorem State.raise_fault (c : FaultCause) :
    (s.raise c).fault = { kind := c.kind, value := c.value, faultPc := s.pc } := rfl
@[simp] theorem State.raise_outlog (c : FaultCause) :
    (s.raise c).outlog = s.outlog := rfl
@[simp] theorem State.raise_traceEn (c : FaultCause) :
    (s.raise c).traceEn = s.traceEn := rfl

/-! ### `withTrace` -/

@[simp] theorem State.withTrace_cfg (b : Bool) (log : List Word) :
    (s.withTrace b log).cfg = s.cfg := rfl
@[simp] theorem State.withTrace_mem (b : Bool) (log : List Word) :
    (s.withTrace b log).mem = s.mem := rfl
@[simp] theorem State.withTrace_x (b : Bool) (log : List Word) :
    (s.withTrace b log).x = s.x := rfl
@[simp] theorem State.withTrace_stack (b : Bool) (log : List Word) :
    (s.withTrace b log).stack = s.stack := rfl
@[simp] theorem State.withTrace_pc (b : Bool) (log : List Word) :
    (s.withTrace b log).pc = s.pc := rfl
@[simp] theorem State.withTrace_run (b : Bool) (log : List Word) :
    (s.withTrace b log).run = s.run := rfl
@[simp] theorem State.withTrace_fault (b : Bool) (log : List Word) :
    (s.withTrace b log).fault = s.fault := rfl
@[simp] theorem State.withTrace_outlog (b : Bool) (log : List Word) :
    (s.withTrace b log).outlog = log := rfl
@[simp] theorem State.withTrace_traceEn (b : Bool) (log : List Word) :
    (s.withTrace b log).traceEn = b := rfl

/-! ### `withPolicy` -/

@[simp] theorem State.withPolicy_cfg (p : UnloadedPolicy) :
    (s.withPolicy p).cfg = { s.cfg with unloaded := p } := rfl
@[simp] theorem State.withPolicy_mem (p : UnloadedPolicy) :
    (s.withPolicy p).mem = s.mem := rfl
@[simp] theorem State.withPolicy_x (p : UnloadedPolicy) :
    (s.withPolicy p).x = s.x := rfl
@[simp] theorem State.withPolicy_stack (p : UnloadedPolicy) :
    (s.withPolicy p).stack = s.stack := rfl
@[simp] theorem State.withPolicy_pc (p : UnloadedPolicy) :
    (s.withPolicy p).pc = s.pc := rfl
@[simp] theorem State.withPolicy_run (p : UnloadedPolicy) :
    (s.withPolicy p).run = s.run := rfl
@[simp] theorem State.withPolicy_fault (p : UnloadedPolicy) :
    (s.withPolicy p).fault = s.fault := rfl
@[simp] theorem State.withPolicy_outlog (p : UnloadedPolicy) :
    (s.withPolicy p).outlog = s.outlog := rfl
@[simp] theorem State.withPolicy_traceEn (p : UnloadedPolicy) :
    (s.withPolicy p).traceEn = s.traceEn := rfl

/-! ### `withCap` -/

@[simp] theorem State.withCap_cfg (cap : Option Nat) :
    (s.withCap cap).cfg = { s.cfg with stackCap := cap } := rfl
@[simp] theorem State.withCap_mem (cap : Option Nat) :
    (s.withCap cap).mem = s.mem := rfl
@[simp] theorem State.withCap_x (cap : Option Nat) :
    (s.withCap cap).x = s.x := rfl
@[simp] theorem State.withCap_stack (cap : Option Nat) :
    (s.withCap cap).stack = s.stack := rfl
@[simp] theorem State.withCap_pc (cap : Option Nat) :
    (s.withCap cap).pc = s.pc := rfl
@[simp] theorem State.withCap_run (cap : Option Nat) :
    (s.withCap cap).run = s.run := rfl
@[simp] theorem State.withCap_fault (cap : Option Nat) :
    (s.withCap cap).fault = s.fault := rfl
@[simp] theorem State.withCap_outlog (cap : Option Nat) :
    (s.withCap cap).outlog = s.outlog := rfl
@[simp] theorem State.withCap_traceEn (cap : Option Nat) :
    (s.withCap cap).traceEn = s.traceEn := rfl

/-! ### Reading a register after an update -/

@[simp] theorem State.writeReg_reg (i j : Fin 8) (v : Word) :
    (s.writeReg i v).reg j = if j = i then v else s.reg j := by
  unfold State.reg State.writeReg
  by_cases h : j = i
  · subst h; simp
  · have : (i : Nat) ≠ j := fun e => h (Fin.ext e.symm)
    simp [h, this]

/-- A register is read from the register field alone. -/
theorem State.reg_congr {s t : State} (h : t.x = s.x) (i : Fin 8) : t.reg i = s.reg i := by
  unfold State.reg; rw [h]

end Sys2Proof.Machine
end

