-- ==== Sys2Proof/Laws/Memory.lean ====
section
/-! SUPPORT. The laws of memory as data (spec/20_memory.md R42, R43): a write is seen by the next read
of its address and by no other, and every memory operation keeps the canonical form. -/

namespace Sys2Proof.Machine

@[simp] theorem Memory.read?_write_same (m : Memory) (a : Nat) (v : Word) :
    (m.write a v).read? a = some v := by
  induction m with
  | nil => simp [Memory.write, Memory.read?]
  | cons c rest ih =>
    obtain ⟨b, w⟩ := c
    unfold Memory.write
    split
    · simp [Memory.read?]
    · split
      · simp [Memory.read?]
      · rename_i h
        simp [Memory.read?, ih, Ne.symm h]

theorem Memory.read?_write_other (m : Memory) {a b : Nat} (v : Word) (h : b ≠ a) :
    (m.write a v).read? b = m.read? b := by
  induction m with
  | nil => simp [Memory.write, Memory.read?, Ne.symm h]
  | cons c rest ih =>
    obtain ⟨d, w⟩ := c
    unfold Memory.write
    split
    · simp [Memory.read?, Ne.symm h]
    · split
      · rename_i e
        subst e
        simp [Memory.read?, Ne.symm h]
      · simp [Memory.read?, ih]

/-- A write keeps the addresses rising from any bound that its own address meets. -/
theorem Memory.risingFrom_write (m : Memory) {lo a : Nat} (v : Word) (hlo : lo ≤ a)
    (ha : a < 32768) (h : m.risingFrom lo = true) : (m.write a v).risingFrom lo = true := by
  induction m generalizing lo with
  | nil => simp [Memory.write, Memory.risingFrom, hlo, ha]
  | cons c rest ih =>
    obtain ⟨b, w⟩ := c
    simp only [Memory.risingFrom, Bool.and_eq_true, decide_eq_true_eq] at h
    obtain ⟨⟨hb, hb'⟩, hr⟩ := h
    unfold Memory.write
    split
    · rename_i hab
      simp [Memory.risingFrom, hlo, ha, Nat.succ_le_of_lt hab, hb', hr]
    · split
      · rename_i e
        subst e
        simp [Memory.risingFrom, hlo, ha, hr]
      · simp only [Memory.risingFrom, Bool.and_eq_true, decide_eq_true_eq]
        exact ⟨⟨hb, hb'⟩, ih (by omega) hr⟩

theorem Memory.wf_write (m : Memory) (a : Addr) (v : Word) (h : m.wf = true) :
    (m.write a.toNat v).wf = true :=
  Memory.risingFrom_write m v (Nat.zero_le _) a.isLt h

/-- An image's addresses rise from where it is loaded. -/
theorem Memory.risingFrom_ofImage (image : List Word) (a : Nat)
    (h : a + image.length ≤ 32768) : (Memory.ofImage a image).risingFrom a = true := by
  induction image generalizing a with
  | nil => rfl
  | cons w ws ih =>
    simp only [List.length_cons] at h
    simp only [Memory.ofImage, Memory.risingFrom, Bool.and_eq_true, decide_eq_true_eq]
    exact ⟨⟨Nat.le_refl _, by omega⟩, ih (a + 1) (by omega)⟩

theorem Memory.wf_ofImage (image : List Word) (h : image.length ≤ 32768) :
    (Memory.ofImage 0 image).wf = true :=
  Memory.risingFrom_ofImage image 0 (by omega)

/-- The word an image puts at an address: the image's own word at that index, counted from where it
is loaded. -/
theorem Memory.read?_ofImage (image : List Word) (lo k : Nat) :
    (Memory.ofImage lo image).read? (lo + k) = image[k]? := by
  induction image generalizing lo k with
  | nil => simp [Memory.ofImage, Memory.read?]
  | cons w ws ih =>
    cases k with
    | zero => simp [Memory.ofImage, Memory.read?]
    | succ k =>
      have := ih (lo + 1) k
      simp only [Memory.ofImage, Memory.read?, List.getElem?_cons_succ]
      rw [if_neg (by omega), ← this]
      congr 1
      omega

/-! ## Reads of the state -/

/-- A read depends on the memory and the parameters alone. -/
theorem State.memRead_congr {s t : State} (hm : t.mem = s.mem) (hc : t.cfg = s.cfg) (a : Addr) :
    t.memRead a = s.memRead a := by
  unfold State.memRead; rw [hm, hc]

theorem State.mdef_congr {s t : State} (hm : t.mem = s.mem) (a : Addr) : t.mdef a = s.mdef a := by
  unfold State.mdef; rw [hm]

@[simp] theorem State.memRead_writeMem_same (s : State) (a : Addr) (v : Word) :
    (s.writeMem a v).memRead a = .ok v := by
  simp [State.memRead]

@[simp] theorem State.mdef_writeMem_same (s : State) (a : Addr) (v : Word) :
    (s.writeMem a v).mdef a = true := by
  simp [State.mdef]

theorem addr_toNat_ne {a b : Addr} (h : b ≠ a) : b.toNat ≠ a.toNat :=
  fun e => h (BitVec.eq_of_toNat_eq e)

theorem State.memRead_writeMem_other (s : State) {a b : Addr} (v : Word) (h : b ≠ a) :
    (s.writeMem a v).memRead b = s.memRead b := by
  simp only [State.memRead, State.writeMem_mem, State.writeMem_cfg]
  rw [Memory.read?_write_other s.mem v (addr_toNat_ne h)]

theorem State.mdef_writeMem_other (s : State) {a b : Addr} (v : Word) (h : b ≠ a) :
    (s.writeMem a v).mdef b = s.mdef b := by
  simp only [State.mdef, State.writeMem_mem]
  rw [Memory.read?_write_other s.mem v (addr_toNat_ne h)]

end Sys2Proof.Machine
end

