-- ==== Sys2Proof/Laws/Operands.lean ====
section
/-! SUPPORT. Word classes both ways (spec/30_encoding.md R61), the operand modes, and sequencing of
checks that may fault. -/

namespace Sys2Proof

theorem Operand.ofWord_lit {w : Word} (h : w.toNat < 32768) :
    Operand.ofWord w = .lit (w.setWidth 15) := by
  simp [Operand.ofWord, h]

theorem Operand.ofWord_reg {w : Word} {i : Fin 8} (h : w.toNat = 32768 + i.val) :
    Operand.ofWord w = .reg i := by
  have hi := i.isLt
  have e : Fin.ofNat 8 (w.toNat - 32768) = i := by
    apply Fin.ext
    rw [Fin.val_ofNat]
    omega
  unfold Operand.ofWord
  rw [if_neg (by omega), if_pos (by omega), e]

theorem Operand.ofWord_inv {w : Word} (h : 32776 ≤ w.toNat) : Operand.ofWord w = .inv w := by
  unfold Operand.ofWord
  rw [if_neg (by omega), if_neg (by omega)]

/-- The three classes cover every word. -/
theorem Operand.ofWord_cases (w : Word) :
    (w.toNat < 32768 ∧ Operand.ofWord w = .lit (w.setWidth 15)) ∨
    (∃ i : Fin 8, w.toNat = 32768 + i.val ∧ Operand.ofWord w = .reg i) ∨
    (32776 ≤ w.toNat ∧ Operand.ofWord w = .inv w) := by
  by_cases h : w.toNat < 32768
  · exact .inl ⟨h, Operand.ofWord_lit h⟩
  · by_cases h' : w.toNat < 32776
    · refine .inr (.inl ⟨⟨w.toNat - 32768, by omega⟩, ?_, Operand.ofWord_reg ?_⟩) <;>
        (simp only []; omega)
    · exact .inr (.inr ⟨by omega, Operand.ofWord_inv (by omega)⟩)

theorem Operand.wf_ofWord (w : Word) : (Operand.ofWord w).wf = true := by
  obtain ⟨_, h⟩ | ⟨i, _, h⟩ | ⟨h', h⟩ := Operand.ofWord_cases w <;> simp [h, Operand.wf]
  exact h'

@[simp] theorem Operand.toWord_ofWord (w : Word) : (Operand.ofWord w).toWord = w := by
  apply BitVec.eq_of_toNat_eq
  obtain ⟨h', h⟩ | ⟨i, h', h⟩ | ⟨_, h⟩ := Operand.ofWord_cases w
  · simp [h, Operand.toWord]; omega
  · have := i.isLt
    simp [h, Operand.toWord, h']; omega
  · simp [h, Operand.toWord]

theorem Operand.ofWord_toWord {o : Operand} (h : o.wf = true) : Operand.ofWord o.toWord = o := by
  cases o with
  | lit v =>
    have hv := v.isLt
    have hn : (v.setWidth 16).toNat = v.toNat := by
      simp only [BitVec.toNat_setWidth]; omega
    rw [Operand.toWord, Operand.ofWord_lit (by omega)]
    congr 1
    apply BitVec.eq_of_toNat_eq
    simp only [BitVec.toNat_setWidth]; omega
  | reg i =>
    have hi := i.isLt
    exact Operand.ofWord_reg (by simp only [Operand.toWord, BitVec.toNat_ofNat]; omega)
  | inv w =>
    simp only [Operand.wf, decide_eq_true_eq] at h
    exact Operand.ofWord_inv h

theorem Operand.map_ofWord_toWord {os : List Operand} (h : ∀ o ∈ os, o.wf = true) :
    (os.map Operand.toWord).map Operand.ofWord = os := by
  induction os with
  | nil => rfl
  | cons o os ih =>
    simp only [List.map_cons, List.cons.injEq]
    exact ⟨Operand.ofWord_toWord (h o (by simp)), ih fun o' ho => h o' (by simp [ho])⟩

theorem Operand.map_toWord_ofWord (ws : List Word) :
    (ws.map Operand.ofWord).map Operand.toWord = ws := by
  induction ws with
  | nil => rfl
  | cons w ws ih => rw [List.map_cons, List.map_cons, Operand.toWord_ofWord, ih]

end Sys2Proof

namespace Sys2Proof.Machine

/-! ## Addresses as words -/

@[simp] theorem wordOf_toNat (a : Addr) : (wordOf a).toNat = a.toNat := by
  have := a.isLt
  simp only [wordOf, BitVec.toNat_setWidth]; omega

@[simp] theorem addrOf_toNat (w : Word) : (addrOf w).toNat = w.toNat % 32768 := by
  simp [addrOf, BitVec.toNat_setWidth]

@[simp] theorem addrOf_wordOf (a : Addr) : addrOf (wordOf a) = a := by
  apply BitVec.eq_of_toNat_eq
  have := a.isLt
  simp; omega

theorem addrOf_eq_ofNat (w : Word) : addrOf w = BitVec.ofNat 15 (w.toNat % 32768) := by
  apply BitVec.eq_of_toNat_eq
  simp

@[simp] theorem wordOf_addrOf {w : Word} (h : w.toNat < 32768) : wordOf (addrOf w) = w := by
  apply BitVec.eq_of_toNat_eq
  simp; omega

/-- The return address of a call at `p` (R154), as a natural. -/
theorem wordOf_pc_add_two (p : Addr) :
    wordOf (p + 2) = BitVec.ofNat 16 ((p.toNat + 2) % 32768) := by
  apply BitVec.eq_of_toNat_eq
  simp; omega

/-! ## Sequencing of checks -/

@[simp] theorem ok_bind {α β : Type} (a : α) (f : α → Except FaultCause β) :
    (Except.ok a >>= f) = f a := rfl

@[simp] theorem error_bind {α β : Type} (c : FaultCause) (f : α → Except FaultCause β) :
    ((Except.error c : Except FaultCause α) >>= f) = .error c := rfl

/-- A sequence completes exactly when each part does. -/
theorem bind_eq_ok {α β : Type} {x : Except FaultCause α} {f : α → Except FaultCause β} {b : β} :
    (x >>= f) = .ok b ↔ ∃ a, x = .ok a ∧ f a = .ok b := by
  cases x <;> simp

/-- A sequence faults with its first part's fault, or with the rest's once the first completes. -/
theorem bind_eq_error {α β : Type} {x : Except FaultCause α} {f : α → Except FaultCause β}
    {c : FaultCause} :
    (x >>= f) = .error c ↔ x = .error c ∨ ∃ a, x = .ok a ∧ f a = .error c := by
  cases x <;> simp

@[simp] theorem State.finish_ok (s t : State) : s.finish (.ok t) = .next t := rfl

@[simp] theorem State.finish_error (s : State) (c : FaultCause) :
    s.finish (.error c) = .next (s.raise c) := rfl

/-! ## Resolution -/

@[simp] theorem State.resolveValue_lit (s : State) (v : BitVec 15) :
    s.resolveValue (.lit v) = .ok (wordOf v) := rfl

@[simp] theorem State.resolveValue_reg (s : State) (i : Fin 8) :
    s.resolveValue (.reg i) = .ok (s.reg i) := rfl

@[simp] theorem State.resolveValue_inv (s : State) (w : Word) :
    s.resolveValue (.inv w) = .error (.invalidOperand w) := rfl

/-- Everything Value mode can answer. -/
theorem State.resolveValue_eq_ok {s : State} {o : Operand} {v : Word} :
    s.resolveValue o = .ok v ↔ (∃ l, o = .lit l ∧ v = wordOf l) ∨ ∃ i, o = .reg i ∧ v = s.reg i := by
  cases o <;> simp [eq_comm]

theorem State.resolveValue_eq_error {s : State} {o : Operand} {c : FaultCause} :
    s.resolveValue o = .error c ↔ ∃ w, o = .inv w ∧ c = .invalidOperand w := by
  cases o <;> simp [eq_comm]

/-- R64: in the semantic range, so is every resolved value. -/
theorem State.resolveValue_lt {s : State} (h : s.SemanticRange) {o : Operand} {v : Word}
    (hv : s.resolveValue o = .ok v) : v.toNat < 32768 := by
  obtain ⟨l, _, rfl⟩ | ⟨i, _, rfl⟩ := State.resolveValue_eq_ok.mp hv
  · simpa using l.isLt
  · exact h.1 i

/-- Resolution reads the registers alone. -/
theorem State.resolveValue_congr {s t : State} (h : t.x = s.x) (o : Operand) :
    t.resolveValue o = s.resolveValue o := by
  cases o <;> simp [State.reg_congr h]

@[simp] theorem resolveRegIndex_lit (v : BitVec 15) :
    resolveRegIndex (.lit v) = .ok (.literal (wordOf v)) := rfl

@[simp] theorem resolveRegIndex_reg (i : Fin 8) : resolveRegIndex (.reg i) = .ok (.index i) := rfl

@[simp] theorem resolveRegIndex_inv (w : Word) :
    resolveRegIndex (.inv w) = .error (.invalidOperand w) := rfl

@[simp] theorem resolveRaw_eq (o : Operand) : resolveRaw o = o := rfl

/-! ## Destination writes -/

@[simp] theorem State.genericWrite_lit (s : State) (a : BitVec 15) (v : Word) :
    s.genericWrite (.lit a) v = .ok (s.writeMem a v) := rfl

@[simp] theorem State.genericWrite_reg (s : State) (i : Fin 8) (v : Word) :
    s.genericWrite (.reg i) v = .ok (s.writeReg i v) := rfl

@[simp] theorem State.genericWrite_inv (s : State) (w v : Word) :
    s.genericWrite (.inv w) v = .error (.invalidOperand w) := rfl

@[simp] theorem State.regWrite_index (s : State) (i : Fin 8) (v : Word) :
    s.regWrite (.index i) v = .ok (s.writeReg i v) := rfl

@[simp] theorem State.regWrite_literal (s : State) (w v : Word) :
    s.regWrite (.literal w) v = .error (.invalidRegister w) := rfl

/-- Everything a generic write can do (R45). -/
theorem State.genericWrite_eq_ok {s t : State} {d : Operand} {v : Word} :
    s.genericWrite d v = .ok t ↔
      (∃ a, d = .lit a ∧ t = s.writeMem a v) ∨ ∃ i, d = .reg i ∧ t = s.writeReg i v := by
  cases d <;> simp [eq_comm]

/-- Everything a RegisterIndex destination can do, from resolution to write (R65, R67). -/
theorem State.regDest_eq_ok {s t : State} {d : Operand} {v : Word} :
    (resolveRegIndex d >>= fun r => s.regWrite r v) = .ok t ↔
      ∃ i, d = .reg i ∧ t = s.writeReg i v := by
  cases d <;> simp [eq_comm]

end Sys2Proof.Machine
end

