-- ==== Sys2Proof/Laws/PerInstr.lean ====
section
/-! SUPPORT. One lemma per instruction about the instruction as syntax: the opcode map (R68) gives its
opcode as many operand modes as it has operands, and makes the instruction again from the two. -/

namespace Sys2Proof.Laws.OpcodeMap

/-- The opcode map and the instruction's own opcode and operands agree. -/
def Statement (i : Instr) : Prop :=
  ∃ modes, operandModes i.opcode = some modes ∧ modes.length = i.operands.length ∧
    instrOf i.opcode i.operands = some i

theorem halt : Statement .halt := ⟨_, rfl, rfl, rfl⟩

theorem set (d a : Operand) : Statement (.set d a) := ⟨_, rfl, rfl, rfl⟩

theorem push (d : Operand) : Statement (.push d) := ⟨_, rfl, rfl, rfl⟩

theorem pop (d : Operand) : Statement (.pop d) := ⟨_, rfl, rfl, rfl⟩

theorem eq (d a b : Operand) : Statement (.eq d a b) := ⟨_, rfl, rfl, rfl⟩

theorem gt (d a b : Operand) : Statement (.gt d a b) := ⟨_, rfl, rfl, rfl⟩

theorem jmp (d : Operand) : Statement (.jmp d) := ⟨_, rfl, rfl, rfl⟩

theorem jt (d a : Operand) : Statement (.jt d a) := ⟨_, rfl, rfl, rfl⟩

theorem jf (d a : Operand) : Statement (.jf d a) := ⟨_, rfl, rfl, rfl⟩

theorem add (d a b : Operand) : Statement (.add d a b) := ⟨_, rfl, rfl, rfl⟩

theorem mult (d a b : Operand) : Statement (.mult d a b) := ⟨_, rfl, rfl, rfl⟩

theorem mod (d a b : Operand) : Statement (.mod d a b) := ⟨_, rfl, rfl, rfl⟩

theorem and (d a b : Operand) : Statement (.and d a b) := ⟨_, rfl, rfl, rfl⟩

theorem or (d a b : Operand) : Statement (.or d a b) := ⟨_, rfl, rfl, rfl⟩

theorem not (d a : Operand) : Statement (.not d a) := ⟨_, rfl, rfl, rfl⟩

theorem rmem (d a : Operand) : Statement (.rmem d a) := ⟨_, rfl, rfl, rfl⟩

theorem wmem (d a : Operand) : Statement (.wmem d a) := ⟨_, rfl, rfl, rfl⟩

theorem call (d : Operand) : Statement (.call d) := ⟨_, rfl, rfl, rfl⟩

theorem ret : Statement .ret := ⟨_, rfl, rfl, rfl⟩

theorem out (d : Operand) : Statement (.out d) := ⟨_, rfl, rfl, rfl⟩

theorem noop : Statement .noop := ⟨_, rfl, rfl, rfl⟩

end Sys2Proof.Laws.OpcodeMap
end

