-- ==== Sys2Proof/Laws/Decode.lean ====
section
/-! SUPPORT. The opcode map and the decoder (spec/30_encoding.md R68 to R70): which opcodes have a row,
and that an instruction and its opcode and operands determine each other. -/

namespace Sys2Proof

/-- The per-instruction lemmas, for every instruction. -/
theorem Instr.opcodeMap (i : Instr) : Laws.OpcodeMap.Statement i := by
  cases i <;> exact ⟨_, rfl, rfl, rfl⟩

theorem instrOf_opcode_operands (i : Instr) : instrOf i.opcode i.operands = some i := by
  obtain ⟨_, _, _, h⟩ := i.opcodeMap; exact h

/-- What the map makes has the opcode and the operands it was made from. -/
theorem opcode_operands_of_instrOf {op : Word} {os : List Operand} {i : Instr}
    (h : instrOf op os = some i) : i.opcode = op ∧ i.operands = os := by
  have key : ∀ n : Nat, op.toNat = n → n < 22 → op = BitVec.ofNat 16 n := by
    intro n hn h22
    apply BitVec.eq_of_toNat_eq
    simp only [BitVec.toNat_ofNat]; omega
  unfold instrOf at h
  split at h <;> first
    | (rename_i hn
       cases h
       exact ⟨(key _ hn (by decide)).symm, rfl⟩)
    | cases h

/-- An opcode with a row makes an instruction from any operands of that number. -/
theorem instrOf_isSome {op : Word} {modes : List Mode} {os : List Operand}
    (h : operandModes op = some modes) (hl : os.length = modes.length) :
    ∃ i, instrOf op os = some i := by
  unfold operandModes at h
  unfold instrOf
  generalize op.toNat = n at h
  by_cases hn : n < 22
  · interval_cases n <;> simp [opcodeTable] at h <;> subst h <;>
      (match os, hl with
        | [], _ => first | exact ⟨_, rfl⟩ | simp_all
        | [_], _ => first | exact ⟨_, rfl⟩ | simp_all
        | [_, _], _ => first | exact ⟨_, rfl⟩ | simp_all
        | [_, _, _], _ => first | exact ⟨_, rfl⟩ | simp_all
        | _ :: _ :: _ :: _ :: _, hl => simp at hl)
  · exfalso
    simp [opcodeTable] at h
    omega

/-- R68, R70 (a): the opcodes without a row. -/
theorem operandModes_eq_none {op : Word} :
    operandModes op = none ↔ op.toNat = 20 ∨ 22 ≤ op.toNat := by
  unfold operandModes
  generalize op.toNat = n
  simp [opcodeTable]
  omega

/-- A resolved opcode's operands head the words, and the rest follow. -/
theorem decodeResolved_eq_ok {op : Word} {ws rest : List Word} {i : Instr} :
    decodeResolved op ws = .ok (i, rest) ↔
      ∃ modes, operandModes op = some modes ∧ modes.length ≤ ws.length ∧
        instrOf op ((ws.take modes.length).map Operand.ofWord) = some i ∧
        rest = ws.drop modes.length := by
  unfold decodeResolved
  cases hm : operandModes op with
  | none => simp
  | some modes =>
    by_cases hl : ws.length < modes.length
    · simp [hl]
    · simp only [if_neg hl, Option.some.injEq]
      constructor
      · intro h
        split at h
        · rename_i j hi
          simp only [Except.ok.injEq, Prod.mk.injEq] at h
          obtain ⟨rfl, rfl⟩ := h
          exact ⟨modes, rfl, by omega, hi, rfl⟩
        · cases h
      · rintro ⟨_, rfl, _, hi, rfl⟩
        rw [hi]

/-- An instruction is well formed exactly when its operands are. -/
theorem Instr.wf_iff_operands (i : Instr) : i.wf = true ↔ ∀ o ∈ i.operands, o.wf = true := by
  cases i <;> simp [Instr.wf, Instr.operands, and_assoc]

theorem Instr.opcode_lt (i : Instr) : i.opcode.toNat < 22 := by
  cases i <;> simp [Instr.opcode]

end Sys2Proof
end

