-- ==== Sys2Proof/Laws/Exec.lean ====
section
/-! SUPPORT. Everything an instruction can do, said once: it takes a fault, or it makes one of the
changes of `Does`. Later proofs go by these cases and do not unfold a meaning. -/

namespace Sys2Proof.Machine

/-! ## Results are in the semantic range (R23) -/

theorem ofNat_mod_lt (n : Nat) : (BitVec.ofNat 16 (n % 32768)).toNat < 32768 := by
  simp only [BitVec.toNat_ofNat]; omega

theorem eqValue_lt (a b : Word) : (eqValue a b).toNat < 32768 := by
  unfold eqValue; split <;> decide

theorem gtValue_lt (a b : Word) : (gtValue a b).toNat < 32768 := by
  unfold gtValue; split <;> decide

theorem andValue_lt (a b : Word) : (andValue a b).toNat < 32768 := by
  have h : (a.toNat % 32768) &&& (b.toNat % 32768) < 2 ^ 15 :=
    Nat.and_lt_two_pow _ (Nat.mod_lt _ (by decide))
  simp only [andValue, BitVec.toNat_ofNat]; omega

theorem orValue_lt (a b : Word) : (orValue a b).toNat < 32768 := by
  have h : (a.toNat % 32768) ||| (b.toNat % 32768) < 2 ^ 15 :=
    Nat.or_lt_two_pow (Nat.mod_lt _ (by decide)) (Nat.mod_lt _ (by decide))
  simp only [orValue, BitVec.toNat_ofNat]; omega

theorem modValue_lt {a b v : Word} (h : modValue a b = .ok v) : v.toNat < 32768 := by
  unfold modValue at h
  split at h
  · cases h
  · cases h; exact ofNat_mod_lt _

/-- The capacity bound, without the match on STACK_CAP. -/
theorem State.stackWithinCap_iff {s : State} :
    s.stackWithinCap = true ↔ ∀ cap, s.cfg.stackCap = some cap → s.stack.length ≤ cap := by
  unfold State.stackWithinCap; cases s.cfg.stackCap <;> simp

/-! ## The changes an instruction can make -/

/-- The instruction `i`, run from `s` without a fault, ends in the state given. A value it writes is
in the semantic range whenever the state it reads is. -/
inductive Does (s : State) : Instr → State → Prop where
  | halts : Does s .halt s.enterHalted
  | moves {i : Instr} (t : Addr) (h : i ≠ .halt) : Does s i (s.withPc t)
  | emits {ch : Operand} (v : Word) (t : Addr) (htr : s.traceEn = false)
      (hv : s.SemanticRange → v.toNat < 32768) : Does s (.out ch) ((s.emit v).withPc t)
  | writesReg {i : Instr} (r : Fin 8) (v : Word) (t : Addr) (hi : destReg i = some r)
      (hv : s.SemanticRange → v.toNat < 32768) : Does s i ((s.writeReg r v).withPc t)
  | writesMem {i : Instr} (a : Addr) (v : Word) (t : Addr) (hi : storeAddr i s = some a)
      (hv : s.SemanticRange → v.toNat < 32768) : Does s i ((s.writeMem a v).withPc t)
  | pushes {i : Instr} (v : Word) (t : Addr) (hi : usesStack i = true)
      (hc : s.cfg.stackCap ≠ some s.stack.length) (hv : s.SemanticRange → v.toNat < 32768) :
      Does s i ((s.withStack (v :: s.stack)).withPc t)
  | popsToPc {i : Instr} (v : Word) (rest : List Word) (t : Addr) (hi : usesStack i = true)
      (hs : s.stack = v :: rest) : Does s i ((s.withStack rest).withPc t)
  | popsToReg {i : Instr} (v : Word) (rest : List Word) (r : Fin 8) (t : Addr)
      (hi : usesStack i = true) (hr : destReg i = some r) (hs : s.stack = v :: rest) :
      Does s i (((s.withStack rest).writeReg r v).withPc t)
  | popsToMem {i : Instr} (v : Word) (rest : List Word) (a : Addr) (t : Addr)
      (hi : usesStack i = true) (ha : storeAddr i s = some a) (hs : s.stack = v :: rest) :
      Does s i (((s.withStack rest).writeMem a v).withPc t)

/-- An outcome is a fault of the instruction, or one of its changes. -/
def Answers (s : State) (i : Instr) (o : Host.Outcome State Fault Refusal) : Prop :=
  ∃ t, o = .next t ∧ ((∃ c, t = s.raise c) ∨ Does s i t)

theorem answers_error (s : State) (i : Instr) (c : FaultCause) :
    Answers s i (s.finish (.error c)) := ⟨_, rfl, .inl ⟨c, rfl⟩⟩

theorem answers_ok {s t : State} {i : Instr} (h : Does s i t) : Answers s i (s.finish (.ok t)) :=
  ⟨_, rfl, .inr h⟩

/-- An effect that completes only in a change of the instruction answers as it should. -/
theorem answers_of {s : State} {i : Instr} {r : Except FaultCause State}
    (h : ∀ t, r = .ok t → Does s i t) : Answers s i (s.finish r) := by
  cases r with
  | ok t => exact answers_ok (h t rfl)
  | error c => exact answers_error s i c

/-- A write to a RawAddress destination, then an advance. -/
theorem does_genericWrite {s t : State} {i : Instr} {dst : Operand} {v : Word} {n : Nat}
    (hr : destReg i = destRegOf dst) (ha : storeAddr i s = destAddrOf dst)
    (hv : s.SemanticRange → v.toNat < 32768) (h : s.genericWrite dst v = .ok t) :
    Does s i (t.advance n) := by
  obtain ⟨a, rfl, rfl⟩ | ⟨r, rfl, rfl⟩ := State.genericWrite_eq_ok.mp h
  · exact .writesMem a v _ ha hv
  · exact .writesReg r v _ hr hv

/-- Everything `ternary` can complete in. -/
theorem State.ternary_eq_ok {s t : State} {f : Word → Word → Except FaultCause Word}
    {dst a b : Operand} :
    s.ternary f dst a b = .ok t ↔
      ∃ va vb v u, s.resolveValue a = .ok va ∧ s.resolveValue b = .ok vb ∧ f va vb = .ok v ∧
        s.genericWrite dst v = .ok u ∧ t = u.advance 4 := by
  unfold State.ternary
  simp only [resolveRaw_eq, bind_eq_ok, Except.ok.injEq]
  constructor
  · rintro ⟨va, h1, vb, h2, v, h3, u, h4, rfl⟩; exact ⟨va, vb, v, u, h1, h2, h3, h4, rfl⟩
  · rintro ⟨va, vb, v, u, h1, h2, h3, h4, rfl⟩; exact ⟨va, h1, vb, h2, v, h3, u, h4, rfl⟩

theorem answers_ternary {s : State} {i : Instr} {f : Word → Word → Except FaultCause Word}
    {dst a b : Operand} (hr : destReg i = destRegOf dst) (ha : storeAddr i s = destAddrOf dst)
    (hf : ∀ va vb v, f va vb = .ok v → v.toNat < 32768) :
    Answers s i (s.finish (s.ternary f dst a b)) := by
  refine answers_of fun t h => ?_
  obtain ⟨va, vb, v, u, _, _, h3, h4, rfl⟩ := State.ternary_eq_ok.mp h
  exact does_genericWrite hr ha (fun _ => hf va vb v h3) h4

theorem answers_branch {s : State} {i : Instr} {taken : Word → Bool} {cond target : Operand}
    (h : i ≠ .halt) : Answers s i (s.finish (s.branch taken cond target)) := by
  refine answers_of fun t ht => ?_
  unfold State.branch at ht
  simp only [bind_eq_ok, Except.ok.injEq] at ht
  obtain ⟨c, _, v, _, rfl⟩ := ht
  split
  · exact .moves _ h
  · exact .moves _ h

/-- Everything `push` can do (R24). -/
theorem State.push_eq_ok {s t : State} {op v : Word} :
    s.push op v = .ok t ↔
      s.cfg.stackCap ≠ some s.stack.length ∧ t = s.withStack (v :: s.stack) := by
  unfold State.push; split <;> simp_all [eq_comm]

/-- Everything `pop` can do (R24). -/
theorem State.pop_eq_ok {s t : State} {op v : Word} :
    s.pop op = .ok (v, t) ↔ ∃ rest, s.stack = v :: rest ∧ t = s.withStack rest := by
  unfold State.pop
  cases s.stack with
  | nil => simp
  | cons w rest =>
    simp only [Except.ok.injEq, Prod.mk.injEq, List.cons.injEq]
    constructor
    · rintro ⟨rfl, rfl⟩; exact ⟨rest, ⟨rfl, rfl⟩, rfl⟩
    · rintro ⟨_, ⟨rfl, rfl⟩, rfl⟩; exact ⟨rfl, rfl⟩

/-- EVERYTHING AN INSTRUCTION CAN DO: every arm of `exec` answers a next state, which is a fault taken
from the state before, or one of the instruction's changes. -/
theorem exec_answers (i : Instr) (s : State) : Answers s i (exec i s) := by
  cases i with
  | halt => exact answers_ok .halts
  | set dst src =>
    refine answers_of fun t h => ?_
    simp only [bind_eq_ok, Except.ok.injEq] at h
    obtain ⟨r, hr, v, hv, u, hu, rfl⟩ := h
    obtain ⟨j, rfl, rfl⟩ := State.regDest_eq_ok.mp (bind_eq_ok.mpr ⟨r, hr, hu⟩)
    exact .writesReg j v _ rfl fun hs => State.resolveValue_lt hs hv
  | push src =>
    refine answers_of fun t h => ?_
    simp only [bind_eq_ok, Except.ok.injEq] at h
    obtain ⟨v, hv, u, hu, rfl⟩ := h
    obtain ⟨hc, rfl⟩ := State.push_eq_ok.mp hu
    exact .pushes v _ rfl hc fun hs => State.resolveValue_lt hs hv
  | pop dst =>
    refine answers_of fun t h => ?_
    simp only [resolveRaw_eq, bind_eq_ok, Except.ok.injEq] at h
    obtain ⟨⟨v, u⟩, hu, w, hw, rfl⟩ := h
    obtain ⟨rest, hs, rfl⟩ := State.pop_eq_ok.mp hu
    obtain ⟨a, rfl, rfl⟩ | ⟨r, rfl, rfl⟩ := State.genericWrite_eq_ok.mp hw
    · exact .popsToMem v rest a _ rfl rfl hs
    · exact .popsToReg v rest r _ rfl rfl hs
  | eq dst a b =>
    exact answers_ternary rfl rfl fun va vb v h => by cases h; exact eqValue_lt va vb
  | gt dst a b =>
    exact answers_ternary rfl rfl fun va vb v h => by cases h; exact gtValue_lt va vb
  | jmp target =>
    refine answers_of fun t h => ?_
    simp only [bind_eq_ok, Except.ok.injEq] at h
    obtain ⟨v, _, rfl⟩ := h
    exact .moves _ (by simp)
  | jt cond target => exact answers_branch (by simp)
  | jf cond target => exact answers_branch (by simp)
  | add dst a b =>
    exact answers_ternary rfl rfl fun va vb v h => by cases h; exact ofNat_mod_lt _
  | mult dst a b =>
    exact answers_ternary rfl rfl fun va vb v h => by cases h; exact ofNat_mod_lt _
  | mod dst a b => exact answers_ternary rfl rfl fun va vb v h => modValue_lt h
  | and dst a b =>
    exact answers_ternary rfl rfl fun va vb v h => by cases h; exact andValue_lt va vb
  | or dst a b =>
    exact answers_ternary rfl rfl fun va vb v h => by cases h; exact orValue_lt va vb
  | not dst a =>
    refine answers_of fun t h => ?_
    simp only [resolveRaw_eq, bind_eq_ok, Except.ok.injEq] at h
    obtain ⟨va, _, u, hu, rfl⟩ := h
    exact does_genericWrite rfl rfl (fun _ => ofNat_mod_lt _) hu
  | rmem dst srcAddr =>
    refine answers_of fun t h => ?_
    simp only [bind_eq_ok, Except.ok.injEq] at h
    obtain ⟨r, hr, a, _, m, _, v, hv, u, hu, rfl⟩ := h
    obtain ⟨j, rfl, rfl⟩ := State.regDest_eq_ok.mp (bind_eq_ok.mpr ⟨r, hr, hu⟩)
    exact .writesReg j v _ rfl fun hs => State.resolveValue_lt hs hv
  | wmem dstAddr src =>
    refine answers_of fun t h => ?_
    simp only [bind_eq_ok, Except.ok.injEq] at h
    obtain ⟨a, ha, v, hv, rfl⟩ := h
    exact .writesMem (addrOf a) v _ (by simp [storeAddr, ha]) fun hs => State.resolveValue_lt hs hv
  | call target =>
    refine answers_of fun t h => ?_
    simp only [bind_eq_ok, Except.ok.injEq] at h
    obtain ⟨v, _, u, hu, rfl⟩ := h
    obtain ⟨hc, rfl⟩ := State.push_eq_ok.mp hu
    exact .pushes _ _ rfl hc fun _ => by rw [wordOf_toNat]; exact (s.pc + 2).isLt
  | ret =>
    refine answers_of fun t h => ?_
    simp only [bind_eq_ok, Except.ok.injEq] at h
    obtain ⟨⟨v, u⟩, hu, rfl⟩ := h
    obtain ⟨rest, hs, rfl⟩ := State.pop_eq_ok.mp hu
    exact .popsToPc v rest _ rfl hs
  | out ch =>
    refine answers_of fun t h => ?_
    simp only [bind_eq_ok, Except.ok.injEq] at h
    obtain ⟨v, hv, rfl⟩ := h
    cases htr : s.traceEn with
    | true => exact .moves _ (by simp)
    | false => exact .emits v _ htr fun hs => State.resolveValue_lt hs hv
  | noop => exact answers_ok (.moves _ (by simp))

/-- The cases of an instruction's next state. -/
theorem exec_next {i : Instr} {s t : State} (h : exec i s = .next t) :
    (∃ c, t = s.raise c) ∨ Does s i t := by
  obtain ⟨u, hu, hc⟩ := exec_answers i s
  rw [hu] at h
  cases h
  exact hc

end Sys2Proof.Machine
end

