-- ==== Sys2Proof/Laws/Step.lean ====
section
/-! SUPPORT. Everything a step can do, said once, and what a fetch reads (spec/40_dispatch.md R82,
R86). -/

namespace Sys2Proof.Machine

/-- A step from Running is the fault of its fetch, or the effect of the instruction fetched. -/
theorem step_running {s : State} (h : s.run = .running) :
    step s = match s.fetch with
      | .error c => .next (s.raise c)
      | .ok i => exec i s := by
  cases hf : s.fetch <;> simp only [step, h, hf]

/-- EVERYTHING A STEP CAN DO: it starts in Running, and it takes a fault, or makes a change of the
instruction fetched. -/
theorem step_next {s t : State} (h : step s = .next t) :
    s.run = .running ∧ ((∃ c, t = s.raise c) ∨ ∃ i, s.fetch = .ok i ∧ Does s i t) := by
  have hr : s.run = .running := by
    unfold step at h
    split at h
    · cases h
    · cases h
    · assumption
  refine ⟨hr, ?_⟩
  rw [step_running hr] at h
  split at h
  · cases h; exact .inl ⟨_, rfl⟩
  · rename_i i hi
    exact (exec_next h).imp id fun hd => ⟨i, hi, hd⟩

@[simp] theorem State.fetchOperands_nil (s : State) (a : Addr) :
    s.fetchOperands a [] = .ok [] := rfl

theorem State.fetchOperands_cons (s : State) (a : Addr) (m : Mode) (ms : List Mode) :
    s.fetchOperands a (m :: ms) = (do
      let w ← s.memRead a
      checkMode m (Operand.ofWord w)
      let rest ← s.fetchOperands (a + 1) ms
      .ok (Operand.ofWord w :: rest)) := rfl

/-- A fetch that completes reads one operand for each mode. -/
theorem State.fetchOperands_length {s : State} {a : Addr} {ms : List Mode} {os : List Operand}
    (h : s.fetchOperands a ms = .ok os) : os.length = ms.length := by
  induction ms generalizing a os with
  | nil => simp at h; simp [← h]
  | cons m ms ih =>
    rw [State.fetchOperands_cons] at h
    simp only [bind_eq_ok, Except.ok.injEq] at h
    obtain ⟨w, _, _, _, rest, hr, rfl⟩ := h
    simp [ih hr]

/-- The address of the operand after the one at offset `k`. -/
theorem addr_offset_succ (a : Addr) (k : Nat) :
    a + 1 + BitVec.ofNat 15 k = a + BitVec.ofNat 15 (k + 1) := by
  rw [BitVec.add_assoc]
  congr 1
  apply BitVec.eq_of_toNat_eq
  simp [Nat.add_comm]

/-- The fetch of the operands `os`, words that stand at `a`, `a + 1`, …: it gives them back, or the
first fault that a Value or RegisterIndex operand of theirs raises. -/
theorem State.fetchOperands_of_words {s : State} {a : Addr} {ms : List Mode} {os : List Operand}
    (hl : os.length = ms.length) (hwf : ∀ o ∈ os, o.wf = true)
    (hw : ∀ (k : Nat) (o : Operand), os[k]? = some o →
      s.memRead (a + BitVec.ofNat 15 k) = .ok o.toWord) :
    s.fetchOperands a ms = ((ms.zip os).foldr (fun mo r => do checkMode mo.1 mo.2; r) (.ok ())
      >>= fun _ => .ok os) := by
  induction ms generalizing a os with
  | nil =>
    cases os with
    | nil => rfl
    | cons o os => simp at hl
  | cons m ms ih =>
    cases os with
    | nil => simp at hl
    | cons o os =>
      have h0 : s.memRead a = .ok o.toWord := by simpa using hw 0 o (by simp)
      have hrest := ih (a := a + 1) (os := os) (by simpa using hl)
        (fun o' ho => hwf o' (by simp [ho])) (fun k o' ho => by
          rw [addr_offset_succ]; exact hw (k + 1) o' (by simpa using ho))
      rw [State.fetchOperands_cons, h0, ok_bind, Operand.ofWord_toWord (hwf o (by simp)), hrest]
      simp only [List.zip_cons_cons, List.foldr_cons]
      cases checkMode m o with
      | error c => rfl
      | ok u =>
        simp only [ok_bind]
        cases (ms.zip os).foldr
          (fun (mo : Mode × Operand) (r : Except FaultCause Unit) => do checkMode mo.1 mo.2; r)
          (.ok ()) <;> rfl

end Sys2Proof.Machine
end

