-- ==== Sys2Proof/Laws/Simulation.lean ====
section
/-! SUPPORT. Two machines whose states differ by a view `f` that instructions do not read: each
effect of one is the effect of the other under `f`, but for faults of a class `skip` that the view
may turn into something else. A view that keeps all but the stack is invisible to the instructions that
do not reach it (spec/10_state.md R25). -/

namespace Sys2Proof.Machine

/-- The view `f` is invisible from `s` to instructions that do not reach the stack: it keeps what they
read, but for reads that fault in the class `skip`, and it commutes with what they write. -/
structure InvisibleOffStack (f : State → State) (skip : FaultCause → Prop) (s : State) : Prop where
  x : (f s).x = s.x
  pc : (f s).pc = s.pc
  read : ∀ a, (∀ w, s.memRead a = .ok w → (f s).memRead a = .ok w) ∧
    ∀ c, s.memRead a = .error c → ¬ skip c → (f s).memRead a = .error c
  writeReg : ∀ (t : State) i v, f (t.writeReg i v) = (f t).writeReg i v
  writeMem : ∀ (t : State) a v, f (t.writeMem a v) = (f t).writeMem a v
  withPc : ∀ (t : State) a, f (t.withPc a) = (f t).withPc a
  pcs : ∀ t : State, (f t).pc = t.pc
  halt : f s.enterHalted = (f s).enterHalted
  raise : ∀ c, f (s.raise c) = (f s).raise c

/-- The view `f` is invisible to all instructions from `s`: it keeps the stack as well, but for pushes
that fault in the class `skip`. -/
structure Invisible (f : State → State) (skip : FaultCause → Prop) (s : State) : Prop
    extends InvisibleOffStack f skip s where
  run : (f s).run = s.run
  stack : (f s).stack = s.stack
  push : ∀ op v, (∀ t, s.push op v = .ok t → (f s).push op v = .ok (f t)) ∧
    ∀ c, s.push op v = .error c → ¬ skip c → (f s).push op v = .error c
  withStack : ∀ (t : State) st, f (t.withStack st) = (f t).withStack st

/-- Another stack is invisible to the instructions that do not reach it. -/
theorem invisibleOffStack_withStack (s : State) (st : List Word) :
    InvisibleOffStack (·.withStack st) (fun _ => False) s where
  x := rfl
  pc := rfl
  read _ := ⟨fun _ h => h, fun _ h _ => h⟩
  writeReg _ _ _ := rfl
  writeMem _ _ _ := rfl
  withPc _ _ := rfl
  pcs _ := rfl
  halt := rfl
  raise _ := rfl

/-- The result `r'` follows `r` through `g`, but for the faults skipped. -/
def Follows {α β : Type} (g : α → β) (skip : FaultCause → Prop) (r : Except FaultCause α)
    (r' : Except FaultCause β) : Prop :=
  (∀ a, r = .ok a → r' = .ok (g a)) ∧ ∀ c, r = .error c → ¬ skip c → r' = .error c

theorem Follows.ok {α β : Type} {g : α → β} {skip : FaultCause → Prop} {a : α} {b : β}
    (h : b = g a) : Follows g skip (.ok a) (.ok b) :=
  ⟨fun _ e => (by cases e; rw [h]), fun _ e => (by cases e)⟩

theorem Follows.error {α β : Type} {g : α → β} {skip : FaultCause → Prop} {c : FaultCause} :
    Follows g skip (.error c) (.error c) :=
  ⟨fun _ e => (by cases e), fun _ e _ => (by cases e; rfl)⟩

theorem Follows.refl {α : Type} {skip : FaultCause → Prop} (r : Except FaultCause α) :
    Follows id skip r r := ⟨fun _ e => e, fun _ e _ => e⟩

/-- Sequences follow part by part. -/
theorem Follows.bind {α β γ δ : Type} {g : α → β} {h : γ → δ} {skip : FaultCause → Prop}
    {r : Except FaultCause α} {r' : Except FaultCause β} {k : α → Except FaultCause γ}
    {k' : β → Except FaultCause δ} (hr : Follows g skip r r')
    (hk : ∀ a, r = .ok a → Follows h skip (k a) (k' (g a))) :
    Follows h skip (r >>= k) (r' >>= k') := by
  constructor
  · intro c hc
    obtain ⟨a, ha, hka⟩ := bind_eq_ok.mp hc
    rw [hr.1 a ha, ok_bind]
    exact (hk a ha).1 c hka
  · intro c hc hs
    obtain hc | ⟨a, ha, hka⟩ := bind_eq_error.mp hc
    · rw [hr.2 c hc hs, error_bind]
    · rw [hr.1 a ha, ok_bind]
      exact (hk a ha).2 c hka hs

section
variable {f : State → State} {skip : FaultCause → Prop} {s : State}

theorem InvisibleOffStack.resolve (h : InvisibleOffStack f skip s) (o : Operand) :
    Follows id skip (s.resolveValue o) ((f s).resolveValue o) := by
  rw [State.resolveValue_congr h.x]; exact .refl _

theorem InvisibleOffStack.memRead (h : InvisibleOffStack f skip s) (a : Addr) :
    Follows id skip (s.memRead a) ((f s).memRead a) := h.read a

theorem InvisibleOffStack.advance (h : InvisibleOffStack f skip s) (t : State) (n : Nat) :
    f (t.advance n) = (f t).advance n := by
  unfold State.advance; rw [h.withPc, h.pcs]

theorem InvisibleOffStack.genericWrite (h : InvisibleOffStack f skip s) (t : State) (d : Operand) (v : Word) :
    Follows f skip (t.genericWrite d v) ((f t).genericWrite d v) := by
  cases d with
  | lit a => exact .ok (h.writeMem t a v).symm
  | reg i => exact .ok (h.writeReg t i v).symm
  | inv w => exact .error

theorem InvisibleOffStack.regWrite (h : InvisibleOffStack f skip s) (t : State) (r : RegDest) (v : Word) :
    Follows f skip (t.regWrite r v) ((f t).regWrite r v) := by
  cases r with
  | index i => exact .ok (h.writeReg t i v).symm
  | literal w => exact .error

theorem Invisible.pop (h : Invisible f skip s) (op : Word) :
    Follows (Prod.map id f) skip (s.pop op) ((f s).pop op) := by
  unfold State.pop
  rw [h.stack]
  cases s.stack with
  | nil => exact .error
  | cons v rest => exact .ok (by simp [h.withStack])

theorem InvisibleOffStack.ternary (h : InvisibleOffStack f skip s) (g : Word → Word → Except FaultCause Word)
    (dst a b : Operand) : Follows f skip (s.ternary g dst a b) ((f s).ternary g dst a b) :=
  (h.resolve a).bind fun va _ => (h.resolve b).bind fun vb _ =>
    (Follows.refl (g va vb)).bind fun v _ => (h.genericWrite s dst v).bind fun t _ =>
      .ok (h.advance t 4).symm

theorem InvisibleOffStack.branch (h : InvisibleOffStack f skip s) (taken : Word → Bool) (cond target : Operand) :
    Follows f skip (s.branch taken cond target) ((f s).branch taken cond target) :=
  (h.resolve cond).bind fun c _ => (h.resolve target).bind fun t _ => .ok (by
    simp only [id]
    split
    · exact (h.withPc s _).symm
    · exact (h.advance s 3).symm)

/-- From a following effect to a following outcome. -/
theorem InvisibleOffStack.finish (h : InvisibleOffStack f skip s) {r r' : Except FaultCause State} {t : State}
    (hf : Follows f skip r r') (ht : s.finish r = .next t) (hs : ∀ c, t = s.raise c → ¬ skip c) :
    (f s).finish r' = .next (f t) := by
  cases r with
  | ok u => cases ht; rw [hf.1 _ rfl]; rfl
  | error c => cases ht; rw [hf.2 _ rfl (hs c rfl), State.finish_error, h.raise]

/-- Every instruction that does not reach the stack, but `out`, acts alike on both machines. -/
theorem InvisibleOffStack.exec (h : InvisibleOffStack f skip s) {i : Instr} {t : State}
    (hu : usesStack i = false) (hi : ∀ ch, i ≠ .out ch) (ht : exec i s = .next t)
    (hs : ∀ c, t = s.raise c → ¬ skip c) : Machine.exec i (f s) = .next (f t) := by
  cases i with
  | halt => exact h.finish (.ok h.halt.symm) ht hs
  | noop => exact h.finish (.ok (h.advance s 1).symm) ht hs
  | eq dst a b => exact h.finish (h.ternary _ dst a b) ht hs
  | gt dst a b => exact h.finish (h.ternary _ dst a b) ht hs
  | add dst a b => exact h.finish (h.ternary _ dst a b) ht hs
  | mult dst a b => exact h.finish (h.ternary _ dst a b) ht hs
  | mod dst a b => exact h.finish (h.ternary _ dst a b) ht hs
  | and dst a b => exact h.finish (h.ternary _ dst a b) ht hs
  | or dst a b => exact h.finish (h.ternary _ dst a b) ht hs
  | not dst a =>
    refine h.finish ?_ ht hs
    exact (h.resolve a).bind fun va _ => (h.genericWrite s dst _).bind fun u _ =>
      .ok (h.advance u 3).symm
  | jt cond target => exact h.finish (h.branch _ cond target) ht hs
  | jf cond target => exact h.finish (h.branch _ cond target) ht hs
  | jmp target =>
    refine h.finish ?_ ht hs
    exact (h.resolve target).bind fun v _ => .ok (h.withPc s _).symm
  | set dst src =>
    refine h.finish ?_ ht hs
    exact (Follows.refl (resolveRegIndex dst)).bind fun r _ => (h.resolve src).bind fun v _ =>
      (h.regWrite s r v).bind fun u _ => .ok (h.advance u 3).symm
  | rmem dst srcAddr =>
    refine h.finish ?_ ht hs
    exact (Follows.refl (resolveRegIndex dst)).bind fun r _ => (h.resolve srcAddr).bind fun a _ =>
      (h.memRead (addrOf a)).bind fun m _ => (h.resolve (Operand.ofWord m)).bind fun v _ =>
        (h.regWrite s r v).bind fun u _ => .ok (h.advance u 3).symm
  | wmem dstAddr src =>
    refine h.finish ?_ ht hs
    exact (h.resolve dstAddr).bind fun a _ => (h.resolve src).bind fun v _ =>
      .ok (by rw [h.advance, h.writeMem]; rfl)
  | push _ => cases hu
  | call _ => cases hu
  | pop _ => cases hu
  | ret => cases hu
  | out ch => exact absurd rfl (hi ch)

/-- Every instruction but `out` acts alike on both machines. -/
theorem Invisible.exec (h : Invisible f skip s) {i : Instr} {t : State}
    (hi : ∀ ch, i ≠ .out ch) (ht : exec i s = .next t) (hs : ∀ c, t = s.raise c → ¬ skip c) :
    Machine.exec i (f s) = .next (f t) := by
  cases hu : usesStack i with
  | false => exact h.toInvisibleOffStack.exec hu hi ht hs
  | true =>
    cases i with
    | push src =>
      refine h.finish ?_ ht hs
      exact (h.resolve src).bind fun v _ => Follows.bind (h.push 2 v) fun u _ =>
        .ok (h.advance u 2).symm
    | call target =>
      refine h.finish ?_ ht hs
      refine (h.resolve target).bind fun v _ => ?_
      simp only [h.pc]
      exact Follows.bind (h.push 17 _) fun u _ => .ok (h.withPc u _).symm
    | pop dst =>
      refine h.finish ?_ ht hs
      exact (h.pop 3).bind fun p _ => (h.genericWrite p.2 dst p.1).bind fun u _ =>
        .ok (h.advance u 2).symm
    | ret =>
      refine h.finish ?_ ht hs
      exact (h.pop 18).bind fun p _ => .ok (h.withPc p.2 _).symm
    | _ => cases hu

/-- The fetch reads alike on both machines. -/
theorem Invisible.fetch (h : Invisible f skip s) : Follows id skip s.fetch (f s).fetch := by
  have operands : ∀ (ms : List Mode) (a : Addr),
      Follows id skip (s.fetchOperands a ms) ((f s).fetchOperands a ms) := by
    intro ms
    induction ms with
    | nil => intro a; exact .refl _
    | cons m ms ih =>
      intro a
      exact (h.memRead a).bind fun w _ => (Follows.refl _).bind fun _ _ =>
        (ih (a + 1)).bind fun os _ => .refl _
  unfold State.fetch State.fetchOpcode
  rw [h.pc]
  refine Follows.bind ((h.memRead s.pc).bind fun w _ => h.resolve (Operand.ofWord w)) fun op _ => ?_
  simp only [id]
  cases operandModes op with
  | none => exact .error
  | some modes => exact (operands modes _).bind fun os _ => .refl _

/-- Steps follow, given that `out` does. -/
theorem Invisible.step (h : Invisible f skip s) {t : State}
    (hout : ∀ ch, Machine.exec (.out ch) s = .next t → Machine.exec (.out ch) (f s) = .next (f t))
    (ht : step s = .next t) (hs : ∀ c, t = s.raise c → ¬ skip c) : Machine.step (f s) = .next (f t) := by
  obtain ⟨hr, _⟩ := step_next ht
  rw [step_running hr] at ht
  rw [step_running (h.run.trans hr)]
  cases hf : s.fetch with
  | error c =>
    rw [hf] at ht
    cases ht
    rw [h.fetch.2 c hf (hs c rfl), h.raise]
  | ok i =>
    rw [hf] at ht
    rw [h.fetch.1 i hf]
    by_cases hi : ∃ ch, i = .out ch
    · obtain ⟨ch, rfl⟩ := hi; exact hout ch ht
    · exact h.exec (fun ch e => hi ⟨ch, e⟩) ht hs

end

end Sys2Proof.Machine
end

