-- ==== Sys2Proof/Tests/Slice0.lean ====
section
/-! SUPPORT. The model's own tests, each a small fact about one step or one word. Expected results come
from spec/95_test_vectors.md (the vector's number stands beside the test) or are written out from the
rule named. -/

namespace Sys2Proof.Tests

open Sys2Proof Sys2Proof.Machine

/-! ## Helpers -/

/-- A state after reset, the words loaded as the image. -/
def prog (image : List Word) : State := { State.reset with mem := Memory.ofImage 0 image }

/-- The next state of an outcome. -/
def nextOf (o : Host.Outcome State Fault Refusal) : Option State :=
  match o with
  | .next t => some t
  | .fault _ => none
  | .refused _ => none

/-- The state after one step. -/
def after (s : State) : Option State := nextOf (step s)

/-- A register and the pc after one step. -/
def regPc (i : Fin 8) (s : State) : Option (Word × Addr) := (after s).map fun t => (t.reg i, t.pc)

/-- The status ports after one step, and whether all else is as before. -/
def faulted (s : State) : Option (Status × Bool) :=
  (after s).map fun t =>
    (t.status, decide ({ t with run := s.run, fault := s.fault } = s))

/-! ## The smoke test of well-formedness: an ill-formed operand in every position is refused -/

/-- A word of class `Lit` (7) and one of class `Reg` (32770), wrongly tagged as invalid. -/
def bad : List Operand := [.inv 7, .inv 32770, .inv 32775]

theorem test_wf_operand : (bad.map Operand.wf) = [false, false, false] ∧
    (Operand.inv 32776).wf = true ∧ (Operand.inv 65535).wf = true := by decide

theorem test_wf_one_operand : ∀ o ∈ bad,
    [Instr.push o, .pop o, .jmp o, .call o, .out o].all (fun i => i.wf = false) := by decide

theorem test_wf_two_operands : ∀ o ∈ bad,
    [Instr.set o (.lit 0), .set (.lit 0) o, .jt o (.lit 0), .jt (.lit 0) o, .jf o (.lit 0),
      .jf (.lit 0) o, .not o (.lit 0), .not (.lit 0) o, .rmem o (.lit 0), .rmem (.lit 0) o,
      .wmem o (.lit 0), .wmem (.lit 0) o].all (fun i => i.wf = false) := by decide

theorem test_wf_compare : ∀ o ∈ bad,
    [Instr.eq o (.lit 0) (.lit 0), .eq (.lit 0) o (.lit 0), .eq (.lit 0) (.lit 0) o,
      .gt o (.lit 0) (.lit 0), .gt (.lit 0) o (.lit 0), .gt (.lit 0) (.lit 0) o].all
      (fun i => i.wf = false) := by decide

theorem test_wf_arith : ∀ o ∈ bad,
    [Instr.add o (.lit 0) (.lit 0), .add (.lit 0) o (.lit 0), .add (.lit 0) (.lit 0) o,
      .mult o (.lit 0) (.lit 0), .mult (.lit 0) o (.lit 0), .mult (.lit 0) (.lit 0) o,
      .mod o (.lit 0) (.lit 0), .mod (.lit 0) o (.lit 0), .mod (.lit 0) (.lit 0) o,
      .and o (.lit 0) (.lit 0), .and (.lit 0) o (.lit 0), .and (.lit 0) (.lit 0) o,
      .or o (.lit 0) (.lit 0), .or (.lit 0) o (.lit 0), .or (.lit 0) (.lit 0) o].all
      (fun i => i.wf = false) := by decide

/-! ## Decoding: a word written out from R68 for every constructor -/

/-- The decoder with the registers at reset. -/
def dec (ws : List Word) : Except DecodeError (Instr × List Word) := decode State.reset.x ws

theorem test_decode_data_movement :
    dec [1, 32768, 32771] = .ok (.set (.reg 0) (.reg 3), []) ∧
    dec [2, 32770] = .ok (.push (.reg 2), []) ∧
    dec [3, 100] = .ok (.pop (.lit 100), []) ∧
    dec [15, 32770, 100] = .ok (.rmem (.reg 2) (.lit 100), []) ∧
    dec [16, 100, 32769] = .ok (.wmem (.lit 100) (.reg 1), []) := by decide

theorem test_decode_compare :
    dec [4, 32768, 32769, 5] = .ok (.eq (.reg 0) (.reg 1) (.lit 5), []) ∧
    dec [5, 32770, 7, 3] = .ok (.gt (.reg 2) (.lit 7) (.lit 3), []) := by decide

theorem test_decode_arith :
    dec [9, 32769, 32768, 10] = .ok (.add (.reg 1) (.reg 0) (.lit 10), []) ∧
    dec [10, 32768, 200, 201] = .ok (.mult (.reg 0) (.lit 200) (.lit 201), []) ∧
    dec [11, 32768, 10, 3] = .ok (.mod (.reg 0) (.lit 10) (.lit 3), []) ∧
    dec [12, 32775, 12, 10] = .ok (.and (.reg 7) (.lit 12) (.lit 10), []) ∧
    dec [13, 32776, 12, 32767] = .ok (.or (.inv 32776) (.lit 12) (.lit 32767), []) ∧
    dec [14, 32769, 0] = .ok (.not (.reg 1) (.lit 0), []) := by decide

theorem test_decode_control :
    dec [6, 10] = .ok (.jmp (.lit 10), []) ∧
    dec [7, 32768, 50] = .ok (.jt (.reg 0) (.lit 50), []) ∧
    dec [8, 0, 50] = .ok (.jf (.lit 0) (.lit 50), []) ∧
    dec [17, 10, 99] = .ok (.call (.lit 10), [99]) ∧
    dec [18, 99] = .ok (.ret, [99]) := by decide

theorem test_decode_system :
    dec [0, 65535] = .ok (.halt, [65535]) ∧ dec [19, 32769] = .ok (.out (.reg 1), []) ∧
    dec [21] = .ok (.noop, []) := by decide

/-- R70, R71: what has no instruction, by name; and a register-encoded opcode word (D-1). -/
theorem test_decode_rejects :
    dec [20] = .error (.undefinedOpcode 20) ∧ dec [22] = .error (.undefinedOpcode 22) ∧
    dec [32767] = .error (.undefinedOpcode 32767) ∧ dec [32776] = .error (.invalidOpcodeWord 32776) ∧
    dec [9, 1, 2] = .error .truncated ∧ dec [] = .error .truncated ∧
    decodeBytes State.reset.x [9] = .error .oddByteCount ∧
    decode (State.reset.x.set 2 21) [32770, 0] = .ok (.noop, [0]) := by decide

/-- R68: no two rows of the opcode map have the same opcode. -/
theorem test_opcode_rows_distinct : (opcodeTable.map OpcodeRow.opcode).Nodup := by decide

/-- L2.9: the bytes 05 00 00 80 are the words 5 and 32768. -/
theorem test_bytes_little_endian :
    wordsOfBytes [0x05, 0x00, 0x00, 0x80] = some [5, 32768] ∧
    bytesOfWords [5, 32768] = [0x05, 0x00, 0x00, 0x80] ∧ wordsOfBytes [1, 2, 3] = none := by decide

/-- The table's numbering: `add r1 r0 10` in 64 bits, and the opcode alone with zero operands. -/
theorem test_decode_table_word :
    decodeTableWord 64 0x000A800080010009 = some (.add (.reg 1) (.reg 0) (.lit 10)) ∧
    decodeTableWord 16 0x80010009 = some (.add (.lit 0) (.lit 0) (.lit 0)) ∧
    decodeTableWord 16 20 = none := by decide

/-- `withFetchWord` makes the very next step run the instruction, from a Halted state too. -/
theorem test_with_fetch_word :
    regPc 1 (State.reset.withFetchWord 64 0x000A800080010009) = some (10, 4) ∧
    regPc 1 (State.reset.enterHalted.withFetchWord 64 0x000A800080010009) = some (10, 4) := by decide

/-! ## Dispatch and fetch (L2.3) -/

theorem test_D4_D7_opcode_words :
    faulted (prog [65535]) = some (⟨2, 1, 65535, 0⟩, true) ∧
    faulted (prog [32767]) = some (⟨2, 2, 32767, 0⟩, true) ∧
    faulted { prog [32771] with x := State.reset.x.set 3 20 } = some (⟨2, 2, 20, 0⟩, true) := by
  decide

theorem test_D10_operands_wrap :
    regPc 0 { State.reset with
      pc := 32766, mem := [(0, 2), (1, 3), (32766, 9), (32767, 32768)] } = some (5, 2) := by decide

theorem test_D13_D14_empty_image :
    faulted State.reset = some (⟨2, 6, 0, 0⟩, true) ∧
    (after (State.reset.withPolicy .zero)).map (fun t => (t.run, t.pc)) = some (.halted, 0) := by
  decide

theorem test_D15_unloaded_operand : faulted (prog [9, 32768, 1]) = some (⟨2, 6, 3, 0⟩, true) := by
  decide

/-- R85 item 4: an invalid operand faults before the next word is found unloaded. -/
theorem test_operand_fault_before_next_word :
    faulted (prog [9, 32768, 32776]) = some (⟨2, 1, 32776, 0⟩, true) := by decide

/-! ## Instructions: vectors of L2.4 to L2.8 -/

theorem test_set : regPc 0 { prog [1, 32768, 32771] with x := State.reset.x.set 3 7 } = some (7, 3) := by
  decide

theorem test_set_literal_dest : faulted (prog [1, 3, 5]) = some (⟨2, 5, 3, 0⟩, true) := by decide

theorem test_push :
    (after { prog [2, 32770] with x := State.reset.x.set 2 9 }).map (fun t => (t.stack, t.pc)) =
      some ([9], 2) := by decide

theorem test_push_overflow :
    faulted ({ prog [2, 2] with stack := [1] }.withCap (some 1)) = some (⟨2, 7, 2, 0⟩, true) := by
  decide

theorem test_pop : (after { prog [3, 100] with stack := [9] }).map
    (fun t => (t.mem.read? 100, t.stack, t.pc)) = some (some 9, [], 2) := by decide

theorem test_pop_stack_before_destination :
    faulted (prog [3, 32776]) = some (⟨2, 3, 3, 0⟩, true) ∧
    faulted { prog [3, 32776] with stack := [9] } = some (⟨2, 1, 32776, 0⟩, true) := by decide

theorem test_rmem_resolves_the_word :
    regPc 0 { State.reset with mem := [(0, 15), (1, 32768), (2, 100), (100, 32771)],
                               x := State.reset.x.set 3 8 } = some (8, 3) := by decide

theorem test_rmem_data_word_before_destination :
    faulted { State.reset with mem := [(0, 15), (1, 5), (2, 100), (100, 32776)] } =
      some (⟨2, 1, 32776, 0⟩, true) ∧
    faulted { State.reset with mem := [(0, 15), (1, 5), (2, 100), (100, 1)] } =
      some (⟨2, 5, 5, 0⟩, true) := by decide

theorem test_wmem : (after { prog [16, 32768, 5] with x := State.reset.x.set 0 200 }).map
    (fun t => (t.mem.read? 200, t.x, t.pc)) = some (some 5, State.reset.x.set 0 200, 3) := by decide

/-- L2.6, last row: the write is seen by the very next fetch. -/
theorem test_wmem_changes_the_next_fetch :
    ((after (prog [16, 3, 0, 21, 0])).bind after).map (fun t => (t.run, t.pc)) =
      some (.halted, 3) := by decide

theorem test_eq :
    regPc 0 { prog [4, 32768, 32769, 5] with x := State.reset.x.set 1 5 } = some (1, 4) ∧
    regPc 0 { prog [4, 32768, 32769, 5] with x := State.reset.x.set 1 6 } = some (0, 4) := by decide

theorem test_gt :
    regPc 2 (prog [5, 32770, 16384, 1]) = some (1, 4) ∧ regPc 2 (prog [5, 32770, 3, 3]) = some (0, 4) := by
  decide

theorem test_add :
    regPc 0 (prog [9, 32768, 32767, 32767]) = some (32766, 4) ∧
    regPc 0 { prog [9, 32768, 32768, 32768] with x := State.reset.x.set 0 100 } = some (200, 4) := by
  decide

theorem test_mult :
    regPc 0 (prog [10, 32768, 32767, 32767]) = some (1, 4) ∧
    regPc 0 (prog [10, 32768, 200, 200]) = some (7232, 4) := by decide

theorem test_mod :
    regPc 0 (prog [11, 32768, 32767, 2]) = some (1, 4) ∧ regPc 0 (prog [11, 32768, 3, 10]) = some (3, 4) := by
  decide

theorem test_mod_zero_before_destination :
    faulted (prog [11, 32776, 5, 0]) = some (⟨2, 4, 11, 0⟩, true) := by decide

theorem test_and : regPc 0 (prog [12, 32768, 21845, 13107]) = some (4369, 4) := by decide

theorem test_or : regPc 0 (prog [13, 32768, 21845, 13107]) = some (30583, 4) := by decide

theorem test_not :
    regPc 0 (prog [14, 32768, 21845]) = some (10922, 3) ∧
    regPc 0 (prog [14, 32768, 32767]) = some (0, 3) := by decide

theorem test_jmp : (after { prog [6, 32768] with x := State.reset.x.set 0 77 }).map (·.pc) = some 77 := by
  decide

theorem test_jt :
    (after (prog [7, 0, 50])).map (·.pc) = some 3 ∧ (after (prog [7, 1, 50])).map (·.pc) = some 50 := by
  decide

theorem test_jt_resolves_an_untaken_target :
    faulted (prog [7, 0, 32776]) = some (⟨2, 1, 32776, 0⟩, true) := by decide

theorem test_jf :
    (after (prog [8, 0, 50])).map (·.pc) = some 50 ∧ (after (prog [8, 1, 50])).map (·.pc) = some 3 := by
  decide

theorem test_call_wraps_the_return_address :
    (after { State.reset with pc := 32767, mem := [(0, 10), (32767, 17)], stack := [8] }).map
      (fun t => (t.stack, t.pc)) = some ([1, 8], 10) := by decide

theorem test_ret :
    (after { prog [18] with stack := [100, 5] }).map (fun t => (t.stack, t.pc)) = some ([5], 100) ∧
    faulted (prog [18]) = some (⟨2, 3, 18, 0⟩, true) := by decide

/-- E10: the words after a halt are never read. -/
theorem test_halt : (after (prog [0, 65535, 20])).map (fun t => (t.run, t.pc, t.exitStatus, t.outlog)) =
    some (.halted, 0, some 0, []) := by decide

theorem test_out :
    (after (prog [19, 300])).map (fun t => (t.outlog, t.pc)) = some ([300], 2) ∧
    (after { prog [19, 65] with traceEn := true }).map (fun t => (t.outlog, t.pc)) = some ([], 2) ∧
    faulted { prog [19, 32776] with traceEn := true } = some (⟨2, 1, 32776, 0⟩, true) := by decide

theorem test_noop : (after { State.reset with pc := 32767, mem := [(32767, 21)] }).map (·.pc) = some 0 := by
  decide

/-- L2.8: opcode 20 is no input instruction, and its exit status is 2. -/
theorem test_opcode_20 : faulted (prog [20]) = some (⟨2, 2, 20, 0⟩, true) ∧
    (after (prog [20])).bind State.exitStatus = some 2 := by decide

/-- L2.9: reset after a faulted run; and the refused images. -/
theorem test_reset :
    ((after State.reset).bind fun t => t.assertReset [] false) = some State.reset ∧
    State.resetFromBytes Config.default [1, 2, 3] false = none := by decide

/-- R36, R42, R196: what was before a write to an unloaded word is its 0 under policy Zero; under Fault
it has no readable value. -/
theorem test_trace_before_an_unloaded_word :
    (after ((prog [16, 100, 5]).withPolicy .zero)).map
      (traceEvents (.wmem (.lit 100) (.lit 5)) ((prog [16, 100, 5]).withPolicy .zero)) =
        some [.memoryWrite 100 (some 0) 5] ∧
    (after (prog [16, 100, 5])).map (traceEvents (.wmem (.lit 100) (.lit 5)) (prog [16, 100, 5])) =
      some [.memoryWrite 100 none 5] := by decide

/-- R196: the events of `pop r1`, which TRACE_FORMAT then formats. -/
theorem test_trace_events :
    (after { prog [3, 32769] with stack := [9] }).map
      (traceEvents (.pop (.reg 1)) { prog [3, 32769] with stack := [9] }) =
    some [.stackPop 1 0 9, .registerWrite 1 0 9] := by decide

/-! ## Witnesses: for every statement with hypotheses, a state and operands that meet them together,
clause by clause, at a boundary of each range -/

/-- A word of each class at both ends of its range: the clauses of WordClassByRangeAndBits,
ValueModeOnEveryWord, RegisterIndexModeOnEveryWord and GenericWriteOnEveryDescriptor. -/
theorem witness_word_classes :
    (0 : Word).toNat < 32768 ∧ (32767 : Word).toNat < 32768 ∧
    (32768 : Word).toNat = 32768 + (0 : Fin 8).val ∧ (32775 : Word).toNat = 32768 + (7 : Fin 8).val ∧
    32776 ≤ (32776 : Word).toNat ∧ 32776 ≤ (65535 : Word).toNat ∧
    (32767 : Word).toNat = (32767 : Addr).toNat := by decide

theorem witness_DecodeOfEncodeIsIdentity :
    (Instr.add (.inv 32776) (.lit 32767) (.reg 7)).wf = true := by decide

theorem witness_DecodedWordsAreTheEncoding :
    decode State.reset.x [2, 65535, 8] = .ok (.push (.inv 65535), [8]) ∧
    decode (State.reset.x.set 7 21) [32775] = .ok (.noop, []) := by decide

/-- A literal opcode word at each edge of the undefined opcodes, a register-encoded one, an opcode with a
row, and the least invalid opcode word. -/
theorem witness_DecoderRejectsByName :
    ((20 : Word).toNat < 32768 ∧ (20 : Word).toNat = 20) ∧
    ((22 : Word).toNat < 32768 ∧ 22 ≤ (22 : Word).toNat) ∧
    ((32775 : Word).toNat = 32768 + (7 : Fin 8).val ∧ (9 : Word) = (State.reset.x.set 7 9)[(7 : Fin 8)] ∧
      operandModes 9 = some [.rawAddress, .value, .value]) ∧ 32776 ≤ (32776 : Word).toNat := by decide

/-- `add r1 r0 10` at address 0, its opcode word literal; and `push 7`, its opcode in register 7. -/
theorem witness_StepRunsTheInstructionAtPc :
    ((prog [9, 32769, 32768, 10]).run = .running ∧
      (Instr.add (.reg 1) (.reg 0) (.lit 10)).wf = true ∧
      (prog [9, 32769, 32768, 10]).HoldsAtPc (.add (.reg 1) (.reg 0) (.lit 10))) ∧
    (prog [32775, 7]).run = .running ∧
    ({ prog [32775, 7] with x := State.reset.x.set 7 2 } : State).HoldsAtPc (.push (.lit 7)) := by
  refine ⟨⟨rfl, by decide, ⟨9, rfl, rfl⟩, ?_⟩, rfl, ⟨32775, rfl, by decide⟩, ?_⟩
  · intro k o h
    match k with
    | 0 => cases h; decide
    | 1 => cases h; decide
    | 2 => cases h; decide
    | k + 3 => cases h
  · intro k o h
    match k with
    | 0 => cases h; decide
    | k + 1 => cases h

theorem witness_StepIsTotalFromRunningOnly :
    State.reset.run = .running ∧ State.reset.enterHalted.run = .halted ∧
    (State.reset.raise .divideByZero).run = .faulted := by decide

theorem witness_OpcodeWordIsValueMode :
    ((prog [32767]).run = .running ∧ (prog [32767]).memRead 0 = .ok 32767) ∧
    (prog [32775]).memRead 0 = .ok 32775 ∧ (prog [32776]).memRead 0 = .ok 32776 := by decide

theorem witness_UndefinedOpcodeFaults :
    ((prog [20]).run = .running ∧ (prog [20]).fetchOpcode = .ok 20) ∧
    (prog [22]).fetchOpcode = .ok 22 := by decide

/-- An unreadable opcode word; then an unreadable third operand after an invalid RawAddress
destination, and an invalid Value operand after a valid destination. -/
theorem witness_FetchFaultsInWordOrder :
    (State.reset.run = .running ∧ State.reset.memRead 0 = .error (.unloadedRead 0)) ∧
    ((prog [9, 32776, 1]).fetchOpcode = .ok 9 ∧
      operandModes 9 = some [.rawAddress, .value, .value] ∧
      (prog [9, 32776, 1]).memRead (0 + BitVec.ofNat 15 1) = .ok 32776 ∧
      ([.rawAddress, .value, .value] : List Mode)[0]? = some .rawAddress ∧
      (prog [9, 32776, 1]).memRead (0 + BitVec.ofNat 15 2) = .ok 1 ∧ (1 : Word).toNat < 32776 ∧
      (prog [9, 32776, 1]).memRead (0 + BitVec.ofNat 15 3) = .error (.unloadedRead 3)) ∧
    ((prog [9, 32768, 32776]).memRead (0 + BitVec.ofNat 15 1) = .ok 32768 ∧
      (prog [9, 32768, 32776]).memRead (0 + BitVec.ofNat 15 2) = .ok 32776) := by decide

theorem witness_FaultsArePrecise :
    ∃ t, step (prog [11, 32768, 5, 0]) = .next t ∧ t.run = .faulted := ⟨_, rfl, rfl⟩

theorem witness_StatusPortsAndExitStatus : State.reset.run = .running := rfl

theorem witness_InstructionTakesItsFirstFault :
    firstFault (.mod (.inv 32776) (.lit 5) (.lit 0)) State.reset = some .divideByZero ∧
    firstFault (.pop (.inv 32776)) State.reset = some (.stackUnderflow 3) ∧
    firstFault (.rmem (.lit 5) (.lit 0)) (prog [32776]) = some (.invalidOperand 32776) := by decide

theorem witness_InstructionRunsWhereNoFaultApplies :
    firstFault .halt State.reset = none ∧
    firstFault (.rmem (.reg 7) (.lit 0)) (prog [32775]) = none := by decide

theorem witness_EveryStepKeepsTheInvariant :
    (prog [9, 32768, 32767, 1]).Inv ∧ ∃ t, step (prog [9, 32768, 32767, 1]) = .next t :=
  ⟨⟨by decide, ⟨by decide, by simp [prog, State.reset]⟩, by decide, by decide,
    by simp [State.OutputInRange, prog, State.reset]⟩, _, rfl⟩

/-- An image of one word; witness_image_lengths has the greatest length. -/
theorem witness_EveryImageResetsIntoTheInvariant :
    ∃ s, State.resetWith { stackCap := some 0, unloaded := .zero } [65535] true = some s := ⟨_, rfl⟩

theorem witness_StepsStoreOnlySemanticValues :
    (prog [19, 32768]).SemanticRange ∧
    ∃ t, step (prog [19, 32768]) = .next t ∧ t.mem.read? 1 = some 32768 ∧
      32768 ≤ (32768 : Word).toNat :=
  ⟨⟨by decide, by simp [prog, State.reset]⟩, _, rfl, by decide, by decide⟩

theorem witness_RegistersOtherThanTheDestinationKeep :
    (∃ t, exec (.add (.reg 0) (.lit 1) (.lit 2)) State.reset = .next t) ∧
    destReg (.add (.reg 0) (.lit 1) (.lit 2)) ≠ some 7 := ⟨⟨_, rfl⟩, by decide⟩

theorem witness_MemoryOutsideTheStoreKeeps :
    (∃ t, exec (.wmem (.lit 32767) (.lit 5)) State.reset = .next t) ∧
    storeAddr (.wmem (.lit 32767) (.lit 5)) State.reset ≠ some 0 ∧
    (∃ t, exec (.eq (.reg 0) (.lit 5) (.lit 5)) State.reset = .next t) ∧
    storeAddr (.eq (.reg 0) (.lit 5) (.lit 5)) State.reset ≠ some 0 :=
  ⟨⟨_, rfl⟩, by decide, ⟨_, rfl⟩, by decide⟩

/-- An instruction off the stack, and a pop of one entry above another. -/
theorem witness_OnlyStackInstructionsReachTheStack :
    ((∃ t, exec .noop (prog [21]) = .next t) ∧ usesStack .noop = false) ∧
    (∃ t, exec (.pop (.reg 0)) (State.reset.withStack [7, 5]) = .next t) ∧
    (State.reset.withStack [7, 5]).stack = 7 :: [5] ∧ ([6] : List Word).length = [5].length :=
  ⟨⟨⟨_, rfl⟩, rfl⟩, ⟨_, rfl⟩, rfl, rfl⟩

theorem witness_OnlyOutAppendsToTheOutputLog :
    ∃ t, exec (.out (.lit 65)) State.reset = .next t ∧ t.outlog = [65] := ⟨_, rfl, by decide⟩

theorem witness_StepsKeepConfigurationAndTraceLatch : ∃ t, step (prog [21]) = .next t := ⟨_, rfl⟩

theorem witness_RunStateChangesOnlyByHaltOrFault :
    (∃ t, step (prog [0]) = .next t ∧ t.run = .halted) ∧
    ∃ t, step (prog [21]) = .next t ∧ t.run ≠ .faulted := ⟨⟨_, rfl, rfl⟩, _, rfl, by decide⟩

theorem witness_writes_are_seen_at_once :
    (7 : Fin 8) ≠ 0 ∧ (0 : Addr) ≠ 32767 ∧ (prog [1, 2]).mem.wf = true := by decide

theorem witness_UnloadedReadFollowsThePolicy :
    ((prog [7]).mdef 1 = false ∧ (prog [7]).cfg.unloaded = .fault) ∧
    (((prog [7]).withPolicy .zero).mdef 1 = false ∧
      ((prog [7]).withPolicy .zero).cfg.unloaded = .zero) ∧ (prog [7]).mdef 0 = true := by decide

/-- The operand hypotheses that the instruction rules share (SetWritesItsRegister,
WmemStoresTheValue, NotWritesTheComplement, JmpSetsThePc, OutEmitsOutsideTraceMode, every TernaryRule
and BranchRule): an invalid word, the greatest literal, a register that holds it, and each kind of
destination. -/
theorem witness_operands :
    State.reset.resolveValue (.lit 32767) = .ok 32767 ∧
    (State.reset.writeReg 7 32767).resolveValue (.reg 7) = .ok 32767 ∧
    State.reset.resolveValue (.inv 32776) = .error (.invalidOperand 32776) ∧
    (∀ w, Operand.lit 32767 ≠ .inv w) ∧ (∀ w, Operand.reg 7 ≠ .inv w) :=
  ⟨rfl, by decide, rfl, by simp, by simp⟩

theorem witness_semantic_range :
    ({ State.reset with stack := [32767] } : State).SemanticRange :=
  ⟨by decide, by simp⟩

/-- PushPutsTheValueOnTop and CallPushesTheReturnAddress: a stack at its capacity, one below it, and
an unbounded one. -/
theorem witness_stack_capacity :
    ({ State.reset.withCap (some 1) with stack := [5] } : State).cfg.stackCap = some 1 ∧
    (State.reset.withCap (some 1)).cfg.stackCap ≠ some State.reset.stack.length ∧
    State.reset.cfg.stackCap ≠ some State.reset.stack.length := by decide

/-- PopWritesTheTopToItsDestination and RetJumpsToThePoppedAddress: an empty stack and one entry. -/
theorem witness_stack_top :
    State.reset.stack = [] ∧ (State.reset.withStack [32767]).stack = 32767 :: [] := by decide

/-- RmemReadsAndResolvesTheWord: an unreadable address, an invalid word, a word that is a register
encoding, and a literal one. -/
theorem witness_RmemReadsAndResolvesTheWord :
    (prog [7]).memRead (BitVec.ofNat 15 ((32767 : Word).toNat % 32768)) =
      .error (.unloadedRead 32767) ∧
    ((prog [32776]).memRead (BitVec.ofNat 15 ((0 : Word).toNat % 32768)) = .ok 32776 ∧
      32776 ≤ (32776 : Word).toNat) ∧
    ((prog [32775]).memRead 0 = .ok 32775 ∧
      (prog [32775]).resolveValue (Operand.ofWord 32775) = .ok 0) ∧
    ((prog [32767]).memRead 0 = .ok 32767 ∧
      (prog [32767]).resolveValue (Operand.ofWord 32767) = .ok 32767) := by decide

/-- ModWritesTheRemainder: a zero and a non-zero divisor. -/
theorem witness_ModWritesTheRemainder :
    (State.reset.resolveValue (.lit 32767) = .ok 32767 ∧ State.reset.resolveValue (.reg 0) = .ok 0 ∧
      (0 : Word).toNat = 0) ∧
    State.reset.resolveValue (.lit 1) = .ok 1 ∧ (1 : Word).toNat ≠ 0 := by decide

/-- JtJumpsOnNonZero and JfJumpsOnZero: a condition on each side. -/
theorem witness_branch_conditions :
    (State.reset.resolveValue (.lit 1) = .ok 1 ∧ (1 : Word).toNat ≠ 0) ∧
    (State.reset.resolveValue (.lit 0) = .ok 0 ∧ ¬ (0 : Word).toNat ≠ 0) := by decide

theorem witness_masking : (0 < 32768 ∧ 32767 < 32768 : Prop) := by decide

/-- Both halves of PushThenPopIsAGenericWrite, from reset (E4, E9). -/
theorem witness_PushThenPopIsAGenericWrite :
    (∃ t u, exec (.push (.lit 42)) State.reset = .next t ∧ t.run = .running ∧
      exec (.pop (.reg 3)) t = .next u ∧ u.run = .running) ∧
    ∃ t u v w, exec (.push (.lit 7)) State.reset = .next t ∧ t.run = .running ∧
      exec (.push (.lit 9)) t = .next u ∧ u.run = .running ∧
      exec (.pop (.lit 200)) u = .next v ∧ exec (.pop (.lit 201)) v = .next w ∧
      (200 : Addr) ≠ 201 :=
  ⟨⟨_, _, rfl, rfl, rfl, rfl⟩, _, _, _, _, rfl, rfl, rfl, rfl, rfl, rfl, by decide⟩

theorem witness_AddingTheComplementSubtracts :
    State.reset.resolveValue (.lit 10) = .ok 10 ∧ (10 : Word).toNat < 32768 ∧
    (∃ t, exec (.add (.reg 0) (.lit 10) (.lit (BitVec.ofNat 15 (32768 - (1 : BitVec 15).toNat))))
      State.reset = .next t ∧ t.reg 0 = 9) ∧
    ∃ u t, exec (.not (.reg 0) (.lit 10)) State.reset = .next u ∧
      exec (.add (.reg 0) (.reg 0) (.lit 1)) u = .next t ∧ t.reg 0 = 32758 :=
  ⟨rfl, by decide, ⟨_, rfl, by decide⟩, _, _, rfl, rfl, by decide⟩

theorem witness_RetUndoesCall :
    ∃ t u : State, exec (.call (.lit 10)) { State.reset with pc := 32767 } = .next t ∧ t.run = .running ∧
      u.stack = t.stack := ⟨_, _, rfl, rfl, rfl⟩

/-- HaltEntersHaltedAtItsAddress: a word 0, a register that holds 0, an unloaded word under policy
Zero, and an image that begins with 0. -/
theorem witness_HaltEntersHaltedAtItsAddress :
    ((prog [0]).run = .running ∧ (prog [0]).fetchOpcode = .ok 0) ∧
    (prog [32775]).fetchOpcode = .ok 0 ∧ (State.reset.withPolicy .zero).fetchOpcode = .ok 0 ∧
    State.resetWith Config.default [0, 65535, 20] false = some (prog [0, 65535, 20]) := by decide

theorem witness_OutEmitsOutsideTraceMode :
    State.reset.traceEn = false ∧ (State.reset.withTrace true []).traceEn = true := by decide

/-- ResetLoadsTheImage and ByteStreamsLoadLittleEndian: the greatest image and the least refused one,
an odd stream, and an address on each side of an image's end. -/
theorem witness_image_lengths :
    (List.replicate 32768 (0 : Word)).length ≤ 32768 ∧
    65536 < (List.replicate 65537 (0 : Byte)).length ∧
    (List.replicate 65536 (0 : Byte)).length % 2 = 0 ∧
    (List.replicate 65536 (0 : Byte)).length ≤ 65536 ∧ ([1, 2, 3] : List Byte).length % 2 = 1 := by
  simp only [List.length_replicate]; decide

theorem witness_image_bounds :
    ([7, 32768] : List Word)[(1 : Addr).toNat]? = some 32768 ∧
    ([7, 32768] : List Word).length ≤ (2 : Addr).toNat ∧
    ([5, 0, 0, 128] : List Byte)[2 * 1]? = some 0 ∧
    ([5, 0, 0, 128] : List Byte)[2 * 1 + 1]? = some 128 ∧
    State.resetFromBytes Config.default [] false = some State.reset := by decide

/-- TraceModeAffectsOnlyOutput, from a machine with output enabled, into each trace mode. -/
theorem witness_TraceModeAffectsOnlyOutput :
    ∃ t, step (prog [19, 65]) = .next t ∧ (prog [19, 65]).traceEn = false := ⟨_, rfl, rfl⟩

/-- A step that does not fault, and one that faults otherwise than by an unloaded read. -/
theorem witness_FaultPolicyStepsAreZeroPolicySteps :
    ((prog [21]).cfg.unloaded = .fault ∧ ∃ t, step (prog [21]) = .next t ∧ t.run ≠ .faulted) ∧
    (prog [20]).cfg.unloaded = .fault ∧
    ∃ t, step (prog [20]) = .next t ∧ t.fault.kind ≠ .unloadedRead :=
  ⟨⟨rfl, _, rfl, by decide⟩, rfl, _, rfl, by decide⟩

theorem witness_CappedStepsAreUnboundedSteps :
    (∃ t, step ((prog [2, 7]).withCap (some 1)) = .next t ∧ t.run ≠ .faulted) ∧
    ∃ t, step ((prog [18]).withCap (some 0)) = .next t ∧ t.fault.kind ≠ .stackOverflow :=
  ⟨⟨_, rfl, by decide⟩, _, rfl, by decide⟩

end Sys2Proof.Tests
end

section
/-! PROOFS. The parameters and the trace latch along a step (spec/00_scope.md R7, spec/10_state.md
R33): they are inputs of the run, and every change that an instruction or a fault makes leaves them. -/

namespace Sys2Proof.Machine

/-- R7, R33: of the changes an instruction can make, each is built from updates of the pc, a register,
a memory word, the stack, the output log and the run state, none of which has these two fields. -/
theorem Does.keeps_cfg_traceEn {s t : State} {i : Instr} (h : Does s i t) :
    t.cfg = s.cfg ∧ t.traceEn = s.traceEn := by
  cases h with
  | halts => simp
  | moves => simp
  | emits => simp
  | writesReg => simp
  | writesMem => simp
  | pushes => simp
  | popsToPc => simp
  | popsToReg => simp
  | popsToMem => simp

/-- Settles O27: by the cases of a step, a fault taken or a change of the instruction fetched. -/
theorem stepsKeepConfigurationAndTraceLatch :
    Obligations.StepsKeepConfigurationAndTraceLatch := by
  intro s t h
  obtain ⟨-, ⟨c, rfl⟩ | ⟨i, -, hdoes⟩⟩ := step_next h
  · exact ⟨s.raise_cfg c, s.raise_traceEn c⟩
  · exact hdoes.keeps_cfg_traceEn

end Sys2Proof.Machine
end

section
/-! PROOFS. One lemma per field of the state about what an instruction may do to it (spec/10_state.md
R21 to R33), each read off the changes of `Does`; and the fault record that taking a fault writes. -/

namespace Sys2Proof.Machine

variable {s t : State} {i : Instr}

/-! ### A register read past an update of another piece of state -/

@[simp] theorem State.withPc_reg (s : State) (a : Addr) (r : Fin 8) :
    (s.withPc a).reg r = s.reg r := rfl
@[simp] theorem State.writeMem_reg (s : State) (a : Addr) (v : Word) (r : Fin 8) :
    (s.writeMem a v).reg r = s.reg r := rfl
@[simp] theorem State.withStack_reg (s : State) (st : List Word) (r : Fin 8) :
    (s.withStack st).reg r = s.reg r := rfl
@[simp] theorem State.emit_reg (s : State) (v : Word) (r : Fin 8) :
    (s.emit v).reg r = s.reg r := rfl
@[simp] theorem State.enterHalted_reg (s : State) (r : Fin 8) :
    s.enterHalted.reg r = s.reg r := rfl
@[simp] theorem State.raise_reg (s : State) (c : FaultCause) (r : Fin 8) :
    (s.raise c).reg r = s.reg r := rfl

/-! ### What an instruction may do to each field -/

/-- R21, R23: a register keeps its content, or it is the destination and takes a semantic value. -/
theorem Does.reg_cases (h : Does s i t) (r : Fin 8) :
    t.reg r = s.reg r ∨ (destReg i = some r ∧ (s.SemanticRange → (t.reg r).toNat < 32768)) := by
  cases h with
  | writesReg q v a hi hv =>
    by_cases hq : r = q
    · exact .inr ⟨hq ▸ hi, by simpa [hq] using hv⟩
    · simp [hq]
  | popsToReg v rest q a hu hi hs =>
    by_cases hq : r = q
    · exact .inr ⟨hq ▸ hi, fun hr => by simpa [hq] using hr.2 v (by simp [hs])⟩
    · simp [hq]
  | _ => simp

/-- R26, R47: memory is as before, or takes one semantic value at the store address. -/
theorem Does.mem_cases (h : Does s i t) :
    t.mem = s.mem ∨ ∃ a v, storeAddr i s = some a ∧ t.mem = s.mem.write a.toNat v ∧
      (s.SemanticRange → v.toNat < 32768) := by
  cases h with
  | writesMem a v p hi hv => exact .inr ⟨a, v, hi, rfl, hv⟩
  | popsToMem v rest a p hu ha hs =>
    exact .inr ⟨a, v, ha, rfl, fun hr => hr.2 v (by simp [hs])⟩
  | _ => simp

/-- R24, R25: the stack is as before, or a stack instruction pushed a semantic value below the
capacity, or popped the top. -/
theorem Does.stack_cases (h : Does s i t) :
    t.stack = s.stack ∨
    (usesStack i = true ∧ s.cfg.stackCap ≠ some s.stack.length ∧
      ∃ v, t.stack = v :: s.stack ∧ (s.SemanticRange → v.toNat < 32768)) ∨
    (usesStack i = true ∧ ∃ v, s.stack = v :: t.stack) := by
  cases h with
  | pushes v p hu hc hv => exact .inr (.inl ⟨hu, hc, v, rfl, hv⟩)
  | popsToPc v rest p hu hs => exact .inr (.inr ⟨hu, v, hs⟩)
  | popsToReg v rest r p hu hr hs => exact .inr (.inr ⟨hu, v, hs⟩)
  | popsToMem v rest a p hu ha hs => exact .inr (.inr ⟨hu, v, hs⟩)
  | _ => simp

/-- R32, R171: the output log is as before, or an `out` outside trace mode appended a semantic
value. -/
theorem Does.outlog_cases (h : Does s i t) :
    t.outlog = s.outlog ∨ (s.traceEn = false ∧ ∃ ch v, i = .out ch ∧
      t.outlog = s.outlog ++ [v] ∧ (s.SemanticRange → v.toNat < 32768)) := by
  cases h with
  | emits v p htr hv => exact .inr ⟨htr, _, v, rfl, rfl, hv⟩
  | _ => simp

/-- R30, R170: an instruction that takes no fault keeps the run state, or is a `halt` and changes the
run state alone. -/
theorem Does.run_cases (h : Does s i t) :
    t.run = s.run ∨ (i = .halt ∧ t = s.enterHalted) := by
  cases h with
  | halts => exact .inr ⟨rfl, rfl⟩
  | _ => simp

/-- R31: an instruction that takes no fault leaves the record alone. -/
theorem Does.fault_eq (h : Does s i t) : t.fault = s.fault := by
  cases h <;> rfl

/-- From Running, an instruction that takes no fault does not end Faulted. -/
theorem Does.run_ne_faulted (h : Does s i t) (hr : s.run = .running) : t.run ≠ .faulted := by
  obtain hrun | ⟨-, rfl⟩ := h.run_cases
  · simp [hrun, hr]
  · simp

/-- R181: every cause names a kind. -/
theorem FaultCause.kind_ne_noFault (c : FaultCause) : c.kind ≠ .noFault := by
  cases c <;> simp [FaultCause.kind]

end Sys2Proof.Machine
end

section
/-! PROOFS. The machine's invariant (spec/10_state.md R23, R24, R31; spec/20_memory.md R43;
spec/45_system_and_output.md R171): each of its parts along an instruction and along a fault, the whole
along a step, and the whole after reset. -/

namespace Sys2Proof.Machine

variable {s t : State} {i : Instr}

/-! ### The parts of the invariant along an instruction that takes no fault -/

theorem Does.keeps_mem_wf (h : Does s i t) (hm : s.mem.wf = true) : t.mem.wf = true := by
  obtain e | ⟨a, v, -, e, -⟩ := h.mem_cases
  · rwa [e]
  · rw [e]; exact Memory.wf_write s.mem a v hm

theorem Does.keeps_semanticRange (h : Does s i t) (hs : s.SemanticRange) : t.SemanticRange := by
  constructor
  · intro r
    obtain e | ⟨-, hv⟩ := h.reg_cases r
    · rw [e]; exact hs.1 r
    · exact hv hs
  · obtain e | ⟨-, -, v, e, hv⟩ | ⟨-, v, e⟩ := h.stack_cases
    · rw [e]; exact hs.2
    · rw [e]; exact List.forall_mem_cons.mpr ⟨hv hs, hs.2⟩
    · exact fun w hw => hs.2 w (e ▸ List.mem_cons_of_mem v hw)

/-- R24: a push runs only below the capacity, so the depth after it is within the capacity. -/
theorem Does.keeps_stackWithinCap (h : Does s i t) (hs : s.stackWithinCap = true) :
    t.stackWithinCap = true := by
  rw [State.stackWithinCap_iff] at hs ⊢
  rw [h.keeps_cfg_traceEn.1]
  intro cap hcap
  have hle := hs cap hcap
  obtain e | ⟨-, hc, v, e, -⟩ | ⟨-, v, e⟩ := h.stack_cases
  · rwa [e]
  · have hne : cap ≠ s.stack.length := fun hlen => hc (by rw [hcap, hlen])
    rw [e, List.length_cons]; omega
  · rw [e, List.length_cons] at hle; omega

/-- R31: the record stays clear along an instruction that takes no fault. -/
theorem Does.keeps_recordMatchesRun (h : Does s i t) (hr : s.run = .running)
    (hs : s.RecordMatchesRun) : t.RecordMatchesRun := by
  have hclear : s.fault = .clear := hs.1 (by simp [hr])
  exact ⟨fun _ => h.fault_eq.trans hclear, fun hf => absurd hf (h.run_ne_faulted hr)⟩

theorem Does.keeps_outputInRange (h : Does s i t) (hr : s.SemanticRange) (hs : s.OutputInRange) :
    t.OutputInRange := by
  obtain e | ⟨-, ch, v, -, e, hv⟩ := h.outlog_cases
  · simpa only [State.OutputInRange, e] using hs
  · intro w hw
    rw [e, List.mem_append, List.mem_singleton] at hw
    obtain hw | rfl := hw
    · exact hs w hw
    · exact hv hr

theorem Does.keeps_inv (h : Does s i t) (hr : s.run = .running) (hs : s.Inv) : t.Inv := by
  obtain ⟨hmem, hrange, hcap, hrecord, hout⟩ := hs
  exact ⟨h.keeps_mem_wf hmem, h.keeps_semanticRange hrange, h.keeps_stackWithinCap hcap,
    h.keeps_recordMatchesRun hr hrecord, h.keeps_outputInRange hrange hout⟩

/-- R84: a fault writes the run state and the record alone, and the record it writes is one of a
Faulted machine. -/
theorem State.Inv.raise (hs : s.Inv) (c : FaultCause) : (s.raise c).Inv := by
  obtain ⟨hmem, hrange, hcap, -, hout⟩ := hs
  exact ⟨hmem, hrange, hcap,
    ⟨fun hrun => absurd (s.raise_run c) hrun, fun _ => ⟨c.kind_ne_noFault, rfl⟩⟩, hout⟩

/-- Settles O19: a step takes a fault or makes a change of its instruction, and both keep every part
of the invariant. -/
theorem everyStepKeepsTheInvariant : Obligations.EveryStepKeepsTheInvariant := by
  intro s t hs h
  obtain ⟨hr, ⟨c, rfl⟩ | ⟨i, -, hdoes⟩⟩ := step_next h
  · exact hs.raise c
  · exact hdoes.keeps_inv hr hs

/-! ### The invariant after reset -/

/-- Everything reset can answer (R36, R211): an image of more than 32768 words is refused. -/
theorem State.resetWith_eq_some {cfg : Config} {image : List Word} {traceEn : Bool} {s : State} :
    State.resetWith cfg image traceEn = some s ↔
      image.length ≤ 32768 ∧
      s = { State.reset with cfg := cfg, mem := Memory.ofImage 0 image, traceEn := traceEn } := by
  unfold State.resetWith
  split
  · simp; omega
  · simp only [Option.some.injEq, eq_comm (b := s)]
    exact (and_iff_right (by omega)).symm

/-- R36: registers, stack and output log hold nothing that could be out of range after reset. -/
theorem State.inv_afterReset (cfg : Config) (image : List Word) (traceEn : Bool)
    (h : image.length ≤ 32768) :
    State.Inv { State.reset with
      cfg := cfg, mem := Memory.ofImage 0 image, traceEn := traceEn } := by
  refine ⟨Memory.wf_ofImage image h, ⟨fun r => ?_, by simp [State.reset]⟩,
    State.stackWithinCap_iff.mpr (by simp [State.reset]), ⟨fun _ => rfl, by simp [State.reset]⟩,
    by simp [State.OutputInRange, State.reset]⟩
  simp [State.reg, State.reset]

/-- Settles O21. -/
theorem everyImageResetsIntoTheInvariant : Obligations.EveryImageResetsIntoTheInvariant := by
  intro cfg image traceEn s h
  obtain ⟨hlen, rfl⟩ := State.resetWith_eq_some.mp h
  exact State.inv_afterReset cfg image traceEn hlen

/-- Settles O20: `State.reset` is reset with the default parameters, the empty image and trace mode
off. -/
theorem resetStateMeetsTheInvariant : Obligations.ResetStateMeetsTheInvariant :=
  everyImageResetsIntoTheInvariant Config.default [] false State.reset rfl

/-! ### What reset gives to each piece of state -/

theorem Memory.read?_ofImage_zero (image : List Word) (k : Nat) :
    (Memory.ofImage 0 image).read? k = image[k]? := by
  simpa using Memory.read?_ofImage image 0 k

/-- Settles O56: the answer of reset is one state, whose memory is read by the image's own words. -/
theorem resetLoadsTheImage : Obligations.ResetLoadsTheImage := by
  intro cfg image traceEn hlen
  refine ⟨_, State.resetWith_eq_some.mpr ⟨hlen, rfl⟩, rfl, fun a => ?_, fun a w hw => ?_,
    fun a ha => ?_, fun r => ?_, rfl, rfl, rfl, rfl, rfl, rfl⟩
  · rw [Bool.eq_iff_iff]; simp [State.mdef, Memory.read?_ofImage_zero]
  · simp [State.memRead, Memory.read?_ofImage_zero, hw]
  · have hnone : image[a.toNat]? = none := List.getElem?_eq_none ha
    obtain ⟨cap, _ | _⟩ := cfg <;> simp [State.memRead, Memory.read?_ofImage_zero, hnone]
  · simp [State.reset]

/-! ### Words of 32768 or more in memory (R26) -/

/-- A write of a semantic value places no word of 32768 or more. -/
theorem Memory.read?_of_write_semantic {m : Memory} {a b : Nat} {v w : Word}
    (hv : v.toNat < 32768) (hw : 32768 ≤ w.toNat) (h : (m.write a v).read? b = some w) :
    m.read? b = some w := by
  by_cases hab : b = a
  · rw [hab, Memory.read?_write_same, Option.some.injEq] at h
    rw [h] at hv; omega
  · rwa [Memory.read?_write_other m v hab] at h

/-- Settles O22: a fault leaves memory alone, and an instruction stores at most one semantic value. -/
theorem stepsStoreOnlySemanticValues : Obligations.StepsStoreOnlySemanticValues := by
  intro s t hs h a w hread hw
  obtain ⟨-, ⟨c, rfl⟩ | ⟨i, -, hdoes⟩⟩ := step_next h
  · exact hread
  · obtain e | ⟨b, v, -, e, hv⟩ := hdoes.mem_cases
    · rwa [e] at hread
    · rw [e] at hread
      exact Memory.read?_of_write_semantic (hv hs) hw hread

end Sys2Proof.Machine
end

section
/-! PROOFS. Frames (spec/10_state.md R21, R25, R30 to R32): what an instruction or a step leaves as it
was, and that no instruction reads the stack below its top. -/

namespace Sys2Proof.Machine

variable {s t : State} {i : Instr}

/-- Settles O29. -/
theorem registerWriteIsSeenAtOnce : Obligations.RegisterWriteIsSeenAtOnce := by
  intro s i j v
  exact ⟨by simp, fun hj => by simp [hj]⟩

/-- Settles O23: a fault writes no register, and an instruction writes at most its destination. -/
theorem registersOtherThanTheDestinationKeep :
    Obligations.RegistersOtherThanTheDestinationKeep := by
  intro i s t h r hr
  obtain ⟨c, rfl⟩ | hdoes := exec_next h
  · exact s.raise_reg c r
  · exact (hdoes.reg_cases r).resolve_right fun hdest => hr hdest.1

/-- Settles O26: a fault emits nothing, and of the instructions `out` alone does. -/
theorem onlyOutAppendsToTheOutputLog : Obligations.OnlyOutAppendsToTheOutputLog := by
  intro i s t h
  obtain ⟨c, rfl⟩ | hdoes := exec_next h
  · exact .inl rfl
  · exact hdoes.outlog_cases.imp id fun ⟨htr, ch, v, hi, hlog, _⟩ => ⟨htr, ch, v, hi, hlog⟩

/-- Settles O28: a fault ends Faulted, and of the instructions `halt` alone changes the run state. -/
theorem runStateChangesOnlyByHaltOrFault : Obligations.RunStateChangesOnlyByHaltOrFault := by
  intro s t h
  obtain ⟨hr, ⟨c, rfl⟩ | ⟨i, hfetch, hdoes⟩⟩ := step_next h
  · simp
  · refine ⟨fun hhalt => ?_, fun _ => hdoes.fault_eq⟩
    obtain hrun | ⟨rfl, rfl⟩ := hdoes.run_cases
    · rw [hrun, hr] at hhalt; cases hhalt
    · exact ⟨hfetch, rfl⟩

/-! ### The stack (R25) -/

/-- A view that keeps the trace latch and commutes with an append to the output log is invisible to
`out` too. -/
theorem InvisibleOffStack.exec_out {f : State → State} {skip : FaultCause → Prop} {ch : Operand}
    (h : InvisibleOffStack f skip s) (htr : (f s).traceEn = s.traceEn)
    (hemit : ∀ v, f (s.emit v) = (f s).emit v) (ht : Machine.exec (.out ch) s = .next t)
    (hs : ∀ c, t = s.raise c → ¬ skip c) : Machine.exec (.out ch) (f s) = .next (f t) := by
  refine h.finish ((h.resolve ch).bind fun v _ => .ok ?_) ht hs
  rw [h.advance, htr]
  split
  · rfl
  · rw [hemit]; rfl

/-- R25: an instruction that does not reach the stack runs alike over any other. -/
theorem exec_withStack (hu : usesStack i = false) (h : exec i s = .next t) (st : List Word) :
    exec i (s.withStack st) = .next (t.withStack st) := by
  have hview := invisibleOffStack_withStack s st
  by_cases hout : ∃ ch, i = .out ch
  · obtain ⟨ch, rfl⟩ := hout
    exact hview.exec_out rfl (fun _ => rfl) h fun _ _ hskip => hskip
  · exact hview.exec hu (fun ch e => hout ⟨ch, e⟩) h fun _ _ hskip => hskip

/-- R24, R25: the three things an outcome does to the stack. -/
theorem exec_stack_cases (h : exec i s = .next t) :
    t.stack = s.stack ∨ (∃ v, t.stack = v :: s.stack) ∨ ∃ v, s.stack = v :: t.stack := by
  obtain ⟨c, rfl⟩ | hdoes := exec_next h
  · exact .inl rfl
  · obtain e | ⟨-, -, v, e, -⟩ | ⟨-, v, e⟩ := hdoes.stack_cases
    · exact .inl e
    · exact .inr (.inl ⟨v, e⟩)
    · exact .inr (.inr ⟨v, e⟩)

theorem exec_stack_eq (hu : usesStack i = false) (h : exec i s = .next t) :
    t.stack = s.stack := by
  obtain ⟨c, rfl⟩ | hdoes := exec_next h
  · rfl
  · obtain e | ⟨hu', -⟩ | ⟨hu', -⟩ := hdoes.stack_cases
    · exact e
    · exact absurd hu' (by simp [hu])
    · exact absurd hu' (by simp [hu])

/-- The state with the entries `st` in the place of as many at the bottom of its stack. -/
def State.withBottom (st : List Word) (s : State) : State :=
  s.withStack (s.stack.take (s.stack.length - st.length) ++ st)

theorem State.withBottom_eq {above rest st : List Word} (hs : s.stack = above ++ rest)
    (hl : st.length = rest.length) : s.withBottom st = s.withStack (above ++ st) := by
  simp [State.withBottom, hs, hl]

/-- Other entries at the bottom are invisible to the instructions that do not reach the stack. -/
theorem invisibleOffStack_withBottom (s : State) (st : List Word) :
    InvisibleOffStack (State.withBottom st) (fun _ => False) s where
  x := rfl
  pc := rfl
  read _ := ⟨fun _ h => h, fun _ h _ => h⟩
  writeReg _ _ _ := rfl
  writeMem _ _ _ := rfl
  withPc _ _ := rfl
  pcs _ := rfl
  halt := rfl
  raise _ := rfl

section
variable {v : Word} {rest st : List Word} (hs : s.stack = v :: rest)
  (hl : st.length = rest.length)
include hs hl

/-- R24: a push asks of the entries below the top only how many they are. -/
theorem push_follows_withBottom (op w : Word) :
    Follows (State.withBottom st) (fun _ => False) (s.push op w)
      ((s.withBottom st).push op w) := by
  rw [State.withBottom_eq (above := [v]) hs hl]
  unfold State.push
  simp only [State.withStack_cfg, State.withStack_stack, List.cons_append, List.nil_append,
    List.length_cons, hs, hl]
  split
  · exact .error
  · exact .ok
      (State.withBottom_eq (s := s.withStack (w :: v :: rest)) (above := [w, v]) rfl hl).symm

/-- R24: a pop takes the top and leaves the entries below it. -/
theorem pop_follows_withBottom (op : Word) :
    Follows (Prod.map id (State.withBottom st)) (fun _ => False) (s.pop op)
      ((s.withBottom st).pop op) := by
  rw [State.withBottom_eq (above := [v]) hs hl]
  simp only [State.pop, hs, State.withStack_stack, List.cons_append, List.nil_append]
  exact .ok (congrArg (Prod.mk v)
    (State.withBottom_eq (s := s.withStack rest) (above := []) rfl hl).symm)

/-- R25: every instruction runs alike over any other entries of the same number below the top. -/
theorem exec_withBottom (h : exec i s = .next t) :
    exec i (s.withBottom st) = .next (t.withBottom st) := by
  have hview := invisibleOffStack_withBottom s st
  have hskip : ∀ c, t = s.raise c → ¬ False := fun _ _ hf => hf
  cases hu : usesStack i with
  | false => rw [State.withBottom, exec_withStack hu h, State.withBottom, exec_stack_eq hu h]
  | true =>
    cases i with
    | push src =>
      refine hview.finish ?_ h hskip
      exact (hview.resolve src).bind fun w _ => (push_follows_withBottom hs hl 2 w).bind
        fun u _ => .ok (hview.advance u 2).symm
    | call target =>
      refine hview.finish ?_ h hskip
      exact (hview.resolve target).bind fun w _ => (push_follows_withBottom hs hl 17 _).bind
        fun u _ => .ok (hview.withPc u _).symm
    | pop dst =>
      refine hview.finish ?_ h hskip
      exact (pop_follows_withBottom hs hl 3).bind fun p _ =>
        (hview.genericWrite p.2 dst p.1).bind fun u _ => .ok (hview.advance u 2).symm
    | ret =>
      refine hview.finish ?_ h hskip
      exact (pop_follows_withBottom hs hl 18).bind fun p _ => .ok (hview.withPc p.2 _).symm
    | _ => cases hu

end

/-- R25: the entries below the top stay at the bottom of the stack. -/
theorem exec_stack_bottom {v : Word} {rest : List Word} (hs : s.stack = v :: rest)
    (h : exec i s = .next t) : ∃ above, t.stack = above ++ rest := by
  obtain e | ⟨w, e⟩ | ⟨w, e⟩ := exec_stack_cases h
  · exact ⟨[v], e.trans hs⟩
  · exact ⟨[w, v], e.trans (by rw [hs]; rfl)⟩
  · exact ⟨[], (List.cons.inj (e.symm.trans hs)).2⟩

/-- Settles O25: off the stack by any other stack, on it by any other entries below the top. -/
theorem onlyStackInstructionsReachTheStack : Obligations.OnlyStackInstructionsReachTheStack := by
  intro i s t h
  refine ⟨fun hu => ⟨exec_stack_eq hu h, exec_withStack hu h⟩, exec_stack_cases h, ?_⟩
  intro v rest st hs hl
  obtain ⟨above, habove⟩ := exec_stack_bottom hs h
  refine ⟨above, habove, ?_⟩
  have hrun := exec_withBottom hs hl h
  rwa [State.withBottom_eq (above := [v]) hs hl, State.withBottom_eq habove hl] at hrun

end Sys2Proof.Machine
end

section
/-! PROOFS. Machines that differ in what an instruction does not read (spec/10_state.md R24, R27, R33;
spec/60_exceptions.md R192): the trace latch with the output log, the policy for unloaded reads, the
capacity of the stack. -/

namespace Sys2Proof.Machine

variable {s t : State} {i : Instr}

/-! ### Views that faults or pushes do not show -/

/-- A fault of the class skipped is followed by anything. -/
theorem Follows.skipped {α β : Type} {g : α → β} {skip : FaultCause → Prop} {c : FaultCause}
    {r' : Except FaultCause β} (h : skip c) : Follows g skip (.error c) r' :=
  ⟨nofun, fun _ e hs => absurd h (by cases e; exact hs)⟩

/-- A push is followed by the push of a view that keeps the capacity and the stack. -/
theorem State.push_follows {f : State → State} {skip : FaultCause → Prop} {op v : Word}
    (hcap : (f s).cfg.stackCap = s.cfg.stackCap) (hstack : (f s).stack = s.stack)
    (hwith : f (s.withStack (v :: s.stack)) = (f s).withStack (v :: s.stack)) :
    Follows f skip (s.push op v) ((f s).push op v) := by
  unfold State.push
  rw [hcap, hstack]
  split
  · exact .error
  · exact .ok hwith.symm

/-! ### Policies and capacities (R27, R24) -/

/-- A state that is not one Faulted with the kind `k` comes from no fault of that kind. -/
theorem not_skip_of_kind {k : FaultKind} (h : t.run ≠ .faulted ∨ t.fault.kind ≠ k)
    (c : FaultCause) (hc : t = s.raise c) : ¬ c.kind = k := by
  subst hc
  simpa using h

/-- R27, R42: the reads of policy Fault are those of policy Zero, but for UnloadedRead. -/
theorem memRead_follows_withPolicy_zero (hp : s.cfg.unloaded = .fault) (a : Addr) :
    Follows id (fun c => c.kind = .unloadedRead) (s.memRead a)
      ((s.withPolicy .zero).memRead a) := by
  simp only [State.memRead, State.withPolicy_mem, State.withPolicy_cfg, hp]
  cases s.mem.read? a.toNat with
  | some w => exact .refl _
  | none => exact .skipped rfl

/-- R24: the pushes of a capped stack are those of an unbounded one, but for StackOverflow. -/
theorem push_follows_withCap_none (s : State) (op v : Word) :
    Follows (·.withCap none) (fun c => c.kind = .stackOverflow) (s.push op v)
      ((s.withCap none).push op v) := by
  simp only [State.push, State.withCap_cfg, reduceCtorEq, if_false]
  split
  · exact .skipped rfl
  · exact .ok rfl

/-- R27, R42: policy Zero is invisible but for the reads that policy Fault answers with
UnloadedRead. -/
theorem invisible_withPolicy_zero (hp : s.cfg.unloaded = .fault) :
    Invisible (·.withPolicy .zero) (fun c => c.kind = .unloadedRead) s where
  x := rfl
  pc := rfl
  read a := memRead_follows_withPolicy_zero hp a
  writeReg _ _ _ := rfl
  writeMem _ _ _ := rfl
  withPc _ _ := rfl
  pcs _ := rfl
  halt := rfl
  raise _ := rfl
  run := rfl
  stack := rfl
  push _ _ := State.push_follows (f := (·.withPolicy .zero)) rfl rfl rfl
  withStack _ _ := rfl

/-- R24: an unbounded stack is invisible but for the pushes that a finite capacity answers with
StackOverflow. -/
theorem invisible_withCap_none (s : State) :
    Invisible (·.withCap none) (fun c => c.kind = .stackOverflow) s where
  x := rfl
  pc := rfl
  read _ := ⟨fun _ h => h, fun _ h _ => h⟩
  writeReg _ _ _ := rfl
  writeMem _ _ _ := rfl
  withPc _ _ := rfl
  pcs _ := rfl
  halt := rfl
  raise _ := rfl
  run := rfl
  stack := rfl
  push op v := push_follows_withCap_none s op v
  withStack _ _ := rfl

/-- Settles O59: policy Zero differs from policy Fault only where a read raises UnloadedRead. -/
theorem faultPolicyStepsAreZeroPolicySteps : Obligations.FaultPolicyStepsAreZeroPolicySteps := by
  intro s t hp h hkind
  have hview := invisible_withPolicy_zero hp
  have hskip := not_skip_of_kind (s := s) hkind
  exact hview.step (fun ch hout => hview.exec_out rfl (fun _ => rfl) hout hskip) h hskip

/-- Settles O60: an unbounded stack differs from a capped one only where a push raises
StackOverflow. -/
theorem cappedStepsAreUnboundedSteps : Obligations.CappedStepsAreUnboundedSteps := by
  intro s t h hkind
  have hview := invisible_withCap_none s
  have hskip := not_skip_of_kind (s := s) hkind
  exact hview.step (fun ch hout => hview.exec_out rfl (fun _ => rfl) hout hskip) h hskip

/-! ### Trace mode (R33, R192) -/

/-- Another trace latch and another output log are invisible to every instruction but `out`. -/
theorem invisible_withTrace (s : State) (traceEn : Bool) (log : List Word) :
    Invisible (·.withTrace traceEn log) (fun _ => False) s where
  x := rfl
  pc := rfl
  read _ := ⟨fun _ h => h, fun _ h _ => h⟩
  writeReg _ _ _ := rfl
  writeMem _ _ _ := rfl
  withPc _ _ := rfl
  pcs _ := rfl
  halt := rfl
  raise _ := rfl
  run := rfl
  stack := rfl
  push _ _ := State.push_follows (f := (·.withTrace traceEn log)) rfl rfl rfl
  withStack _ _ := rfl

/-- `log'` is how a run with the latch `traceEn` leaves its log `log` in the step from `s` to `t`:
unchanged in trace mode, with the values of that step appended where neither machine traces. -/
def LogFollows (s t : State) (traceEn : Bool) (log log' : List Word) : Prop :=
  (traceEn = true → log' = log) ∧
  (traceEn = false → s.traceEn = false → log' = log ++ s.outputEvents t)

theorem logFollows_of_outlog_eq (h : t.outlog = s.outlog) (traceEn : Bool) (log : List Word) :
    LogFollows s t traceEn log log :=
  ⟨fun _ => rfl, fun _ _ => by simp [State.outputEvents, h]⟩

/-- What `out` does once its operand is resolved (R171), as a function of the state before. -/
def State.afterOut (s : State) (v : Word) : State :=
  (if s.traceEn then s else s.emit v).advance 2

/-- `out` resolves its operand, in trace mode too (R171). -/
theorem exec_out (ch : Operand) (s : State) :
    exec (.out ch) s = s.finish (s.resolveValue ch >>= fun v => .ok (s.afterOut v)) := rfl

/-- `out` emits by the latch of its own machine, and its effect is otherwise the same. -/
theorem State.afterOut_withTrace (s : State) (traceEn : Bool) (log : List Word) (v : Word) :
    ∃ log', (s.withTrace traceEn log).afterOut v = (s.afterOut v).withTrace traceEn log' ∧
      LogFollows s (s.afterOut v) traceEn log log' := by
  cases traceEn with
  | true =>
    refine ⟨log, ?_, fun _ => rfl, nofun⟩
    cases htr : s.traceEn <;> simp only [State.afterOut, htr] <;> rfl
  | false =>
    refine ⟨log ++ [v], ?_, nofun, fun _ htr => ?_⟩
    · cases htr : s.traceEn <;> simp only [State.afterOut, htr] <;> rfl
    · simp [State.outputEvents, State.afterOut, htr]

/-- R33 for one instruction. -/
theorem exec_withTrace (h : exec i s = .next t) (traceEn : Bool) (log : List Word) :
    ∃ log', exec i (s.withTrace traceEn log) = .next (t.withTrace traceEn log') ∧
      LogFollows s t traceEn log log' := by
  by_cases hout : ∃ ch, i = .out ch
  · obtain ⟨ch, rfl⟩ := hout
    rw [exec_out] at h
    rw [exec_out, State.resolveValue_congr (s.withTrace_x traceEn log)]
    cases hv : s.resolveValue ch with
    | ok v =>
      rw [hv] at h; cases h
      obtain ⟨log', hafter, hlog⟩ := s.afterOut_withTrace traceEn log v
      exact ⟨log', congrArg _ hafter, hlog⟩
    | error c =>
      rw [hv] at h; cases h
      exact ⟨log, rfl, logFollows_of_outlog_eq rfl traceEn log⟩
  · have hlog : t.outlog = s.outlog :=
      (onlyOutAppendsToTheOutputLog i s t h).resolve_right fun ⟨_, ch, _, hi, _⟩ => hout ⟨ch, hi⟩
    exact ⟨log, (invisible_withTrace s traceEn log).exec (fun ch e => hout ⟨ch, e⟩) h
      (fun _ _ hskip => hskip), logFollows_of_outlog_eq hlog traceEn log⟩

/-- Settles O58: the two machines fetch alike, so they take the same fault of the fetch or run the same
instruction. -/
theorem traceModeAffectsOnlyOutput : Obligations.TraceModeAffectsOnlyOutput := by
  intro s t traceEn log h
  have hview := invisible_withTrace s traceEn log
  obtain ⟨hr, -⟩ := step_next h
  rw [step_running hr] at h
  rw [step_running (hview.run.trans hr)]
  cases hf : s.fetch with
  | error c =>
    rw [hf] at h; cases h
    rw [hview.fetch.2 c hf id]
    exact ⟨log, rfl, logFollows_of_outlog_eq rfl traceEn log⟩
  | ok i =>
    rw [hf] at h
    rw [hview.fetch.1 i hf]
    exact exec_withTrace h traceEn log

end Sys2Proof.Machine
end

section
/-! PROOFS. Memory (spec/20_memory.md R42, R43, R45, R47): what a read gives under each policy, what
a write and an instruction change, and the write that each destination descriptor names. -/

namespace Sys2Proof.Machine

variable {s t : State} {i : Instr} {a : Addr}

/-! ### Reads (R42) -/

/-- The word that `mdef` promises. -/
theorem State.mdef_eq_true_iff : s.mdef a = true ↔ ∃ w, s.mem.read? a.toNat = some w :=
  Option.isSome_iff_exists

theorem State.mdef_eq_false_iff : s.mdef a = false ↔ s.mem.read? a.toNat = none := by
  simp [State.mdef]

/-- A word that is loaded or written is read under both policies. -/
theorem State.memRead_of_read? {w : Word} (h : s.mem.read? a.toNat = some w) :
    s.memRead a = .ok w := by
  simp only [State.memRead, h]

/-- Policy Fault (D3). -/
theorem State.memRead_undefined_fault (h : s.mdef a = false) (hp : s.cfg.unloaded = .fault) :
    s.memRead a = .error (.unloadedRead a) := by
  simp only [State.memRead, State.mdef_eq_false_iff.mp h, hp]

/-- Policy Zero (D3). -/
theorem State.memRead_undefined_zero (h : s.mdef a = false) (hp : s.cfg.unloaded = .zero) :
    s.memRead a = .ok 0 := by
  simp only [State.memRead, State.mdef_eq_false_iff.mp h, hp]

/-- Settles O31, policy by policy where `mdef` is false. -/
theorem unloadedReadFollowsThePolicy : Obligations.UnloadedReadFollowsThePolicy := by
  intro s a
  refine ⟨State.memRead_undefined_fault, State.memRead_undefined_zero, fun h => ?_⟩
  obtain ⟨w, hw⟩ := State.mdef_eq_true_iff.mp h
  exact ⟨w, hw, State.memRead_of_read? hw⟩

/-! ### Writes (R43, R47) -/

/-- Settles O30, by the laws of memory as data. -/
theorem memoryWriteIsSeenAtOnce : Obligations.MemoryWriteIsSeenAtOnce := by
  intro s a b v
  exact ⟨s.memRead_writeMem_same a v, s.mdef_writeMem_same a v,
    fun hb => ⟨s.memRead_writeMem_other v hb, s.mdef_writeMem_other v hb⟩,
    Memory.wf_write s.mem a v⟩

/-- R47: an instruction that takes no fault leaves every word but the one at its store address.
Where it stores, its memory is that of the plain write, and a read sees no other field but the
parameters. -/
theorem Does.memRead_mdef_eq (h : Does s i t) (ha : storeAddr i s ≠ some a) :
    t.memRead a = s.memRead a ∧ t.mdef a = s.mdef a := by
  have hcfg : t.cfg = s.cfg := h.keeps_cfg_traceEn.1
  obtain hmem | ⟨b, v, hb, hmem, -⟩ := h.mem_cases
  · exact ⟨State.memRead_congr hmem hcfg a, State.mdef_congr hmem a⟩
  · have hne : a ≠ b := fun hab => ha (hab ▸ hb)
    exact ⟨(State.memRead_congr (s := s.writeMem b v) hmem hcfg a).trans
        (s.memRead_writeMem_other v hne),
      (State.mdef_congr (s := s.writeMem b v) hmem a).trans (s.mdef_writeMem_other v hne)⟩

/-- Settles O24: a fault writes no memory, and an instruction writes at most its store address. -/
theorem memoryOutsideTheStoreKeeps : Obligations.MemoryOutsideTheStoreKeeps := by
  intro i s t h a ha
  obtain ⟨c, rfl⟩ | hdoes := exec_next h
  · exact ⟨State.memRead_congr (s.raise_mem c) (s.raise_cfg c) a,
      State.mdef_congr (s.raise_mem c) a⟩
  · exact hdoes.memRead_mdef_eq ha

/-! ### Destination descriptors (R45) -/

theorem ofWord_eq_lit_of_toNat_eq {d : Word} (h : d.toNat = a.toNat) :
    Operand.ofWord d = .lit a := by
  have hlt : d.toNat < 32768 := h ▸ a.isLt
  have haddr : d.setWidth 15 = a := by
    apply BitVec.eq_of_toNat_eq
    rw [BitVec.toNat_setWidth, h, Nat.mod_eq_of_lt a.isLt]
  rw [Operand.ofWord_lit hlt, haddr]

/-- Settles O4, one class of the descriptor at a time. -/
theorem genericWriteOnEveryDescriptor : Obligations.GenericWriteOnEveryDescriptor := by
  intro s d v
  simp only [resolveRaw_eq]
  refine ⟨Operand.toWord_ofWord d, fun a h => ?_, fun r h => ?_, fun h => ?_⟩
  · rw [ofWord_eq_lit_of_toNat_eq h, State.genericWrite_lit]
  · rw [Operand.ofWord_reg h]; rfl
  · rw [Operand.ofWord_inv h, State.genericWrite_inv]

end Sys2Proof.Machine
end

section
/-! PROOFS. The program image as a byte stream (spec/20_memory.md R41; spec/70_reset_and_hazards.md
R211): its length, its words, which streams are refused, and the first step on the empty one. -/

namespace Sys2Proof

variable {bytes : List Byte} {image : List Word}

/-! ### The words of a byte stream (R41) -/

theorem wordsOfBytes_cons_cons_eq_some {lo hi : Byte} :
    wordsOfBytes (lo :: hi :: bytes) = some image ↔
      ∃ rest, wordsOfBytes bytes = some rest ∧
        image = BitVec.ofNat 16 (lo.toNat + 256 * hi.toNat) :: rest := by
  simp [wordsOfBytes, eq_comm]

/-- Each word takes two bytes, so a stream of odd length has no words (D2). -/
theorem length_of_wordsOfBytes (h : wordsOfBytes bytes = some image) :
    bytes.length = 2 * image.length := by
  induction bytes using wordsOfBytes.induct generalizing image with
  | case1 => cases h; rfl
  | case2 => cases h
  | case3 lo hi bytes ih =>
    obtain ⟨rest, hrest, rfl⟩ := wordsOfBytes_cons_cons_eq_some.mp h
    have := ih hrest
    simp only [List.length_cons]; omega

theorem exists_wordsOfBytes (h : bytes.length % 2 = 0) :
    ∃ image, wordsOfBytes bytes = some image := by
  induction bytes using wordsOfBytes.induct with
  | case1 => exact ⟨[], rfl⟩
  | case2 => cases h
  | case3 lo hi bytes ih =>
    obtain ⟨rest, hrest⟩ := ih (by simp only [List.length_cons] at h; omega)
    exact ⟨_, wordsOfBytes_cons_cons_eq_some.mpr ⟨rest, hrest, rfl⟩⟩

/-- Word `k` is made of bytes `2k` and `2k + 1`, low byte first. -/
theorem getElem?_wordsOfBytes (h : wordsOfBytes bytes = some image) {k : Nat} {lo hi : Byte}
    (hlo : bytes[2 * k]? = some lo) (hhi : bytes[2 * k + 1]? = some hi) :
    image[k]? = some (BitVec.ofNat 16 (lo.toNat + 256 * hi.toNat)) := by
  induction bytes using wordsOfBytes.induct generalizing image k with
  | case1 => cases hlo
  | case2 => cases h
  | case3 b0 b1 bytes ih =>
    obtain ⟨rest, hrest, rfl⟩ := wordsOfBytes_cons_cons_eq_some.mp h
    cases k with
    | zero => cases hlo; cases hhi; rfl
    | succ k => exact ih hrest hlo hhi

end Sys2Proof

namespace Sys2Proof.Machine

variable {s : State} {cfg : Config} {bytes : List Byte} {image : List Word} {traceEn : Bool}

/-! ### Reset from a byte stream (R211) -/

theorem State.resetFromBytes_of_words (h : wordsOfBytes bytes = some image) :
    State.resetFromBytes cfg bytes traceEn = State.resetWith cfg image traceEn := by
  simp [State.resetFromBytes, h]

/-- Only streams of even length and at most 65536 bytes give a machine (D2). -/
theorem State.length_of_resetFromBytes (h : State.resetFromBytes cfg bytes traceEn = some s) :
    bytes.length % 2 = 0 ∧ bytes.length ≤ 65536 := by
  obtain ⟨image, himage, hreset⟩ := Option.bind_eq_some_iff.mp h
  have hbytes := length_of_wordsOfBytes himage
  have hwords := (State.resetWith_eq_some.mp hreset).1
  omega

theorem State.resetFromBytes_eq_none (h : bytes.length % 2 = 1 ∨ 65536 < bytes.length) :
    State.resetFromBytes cfg bytes traceEn = none := by
  refine Option.eq_none_iff_forall_ne_some.mpr fun s hs => ?_
  have := State.length_of_resetFromBytes hs
  omega

/-! ### The first step on the empty stream (R211) -/

/-- A fault of the read at the pc is the fault of the fetch (R85 item 1). -/
theorem State.fetch_of_memRead_error {c : FaultCause} (h : s.memRead s.pc = .error c) :
    s.fetch = .error c := by
  simp only [State.fetch, State.fetchOpcode, h, error_bind]

/-- A word 0 at the pc is `halt`, which has no operand words (R170). -/
theorem State.fetch_of_memRead_zero (h : s.memRead s.pc = .ok 0) : s.fetch = .ok .halt := by
  have hop : s.fetchOpcode = .ok 0 := by rw [State.fetchOpcode, h]; rfl
  rw [State.fetch, hop]; rfl

/-- The first step where the word at the pc is neither loaded nor written. -/
theorem step_of_mdef_pc_false (hr : s.run = .running) (hd : s.mdef s.pc = false) :
    step s = match s.cfg.unloaded with
      | .fault => .next (s.raise (.unloadedRead s.pc))
      | .zero => .next s.enterHalted := by
  rw [step_running hr]
  cases hp : s.cfg.unloaded with
  | fault => rw [State.fetch_of_memRead_error (State.memRead_undefined_fault hd hp)]
  | zero => rw [State.fetch_of_memRead_zero (State.memRead_undefined_zero hd hp)]; rfl

/-- Settles O57: the length of a stream decides whether it has words and whether reset takes
them. -/
theorem byteStreamsLoadLittleEndian : Obligations.ByteStreamsLoadLittleEndian := by
  intro cfg bytes traceEn
  refine ⟨fun hodd => State.resetFromBytes_eq_none (.inl hodd),
    fun hlong => State.resetFromBytes_eq_none (.inr hlong), fun heven hlen => ?_, fun s hs => ?_⟩
  · obtain ⟨image, himage⟩ := exists_wordsOfBytes heven
    have hbytes := length_of_wordsOfBytes himage
    have hreset := State.resetWith_eq_some (cfg := cfg) (traceEn := traceEn).mpr
      ⟨show image.length ≤ 32768 by omega, rfl⟩
    exact ⟨image, by omega, State.resetFromBytes_of_words himage, by simp [hreset],
      fun k lo hi => getElem?_wordsOfBytes himage⟩
  · rw [State.resetFromBytes_of_words (image := []) rfl] at hs
    obtain ⟨-, rfl⟩ := State.resetWith_eq_some.mp hs
    exact step_of_mdef_pc_false rfl rfl

end Sys2Proof.Machine
end

section
/-! PROOFS. The encoding (spec/30_encoding.md): the classes of raw words by range and by bits, the
operand modes and the opcode resolved on every word, and the decoder and the encoder as inverses of
each other. -/

namespace Sys2Proof

variable {x : RegBank} {w w0 op : Word} {ws rest : List Word} {i : Instr} {modes : List Mode}

/-! ### The value and the bit tests of a raw word (R61) -/

/-- The value of a word's literal is the word. -/
theorem Machine.wordOf_setWidth (h : w.toNat < 32768) : Machine.wordOf (w.setWidth 15) = w :=
  Machine.wordOf_addrOf h

theorem getLsbD_15_eq_true_iff : w.getLsbD 15 = true ↔ 32768 ≤ w.toNat := by
  have hmsb : w.msb = w.getLsbD 15 := w.msb_eq_getLsbD_last
  rw [← hmsb, BitVec.msb_eq_decide]; simp

/-- Bits 14:3 count the eights below bit 15. -/
theorem extractLsb'_3_12_eq_zero_iff : w.extractLsb' 3 12 = 0 ↔ w.toNat / 8 % 4096 = 0 := by
  simp [← BitVec.toNat_inj, Nat.shiftRight_eq_div_pow]

theorem extractLsb'_0_3_eq_ofNat {r : Fin 8} (h : w.toNat = 32768 + r.val) :
    w.extractLsb' 0 3 = BitVec.ofNat 3 r.val := by
  apply BitVec.eq_of_toNat_eq
  simp only [BitVec.extractLsb'_toNat, BitVec.toNat_ofNat, Nat.shiftRight_zero]
  omega

/-- Settles O1: the classes by their ranges, and each bit test as a fact about the word's number. -/
theorem wordClassByRangeAndBits : Obligations.WordClassByRangeAndBits := by
  intro w
  have hlt := w.isLt
  refine ⟨Operand.ofWord_lit, fun _ => Operand.ofWord_reg, Operand.ofWord_inv, ?_, ?_, ?_,
    fun _ => extractLsb'_0_3_eq_ofNat⟩
  · rw [← Bool.not_eq_true, getLsbD_15_eq_true_iff]; omega
  · rw [getLsbD_15_eq_true_iff, extractLsb'_3_12_eq_zero_iff]; omega
  · rw [getLsbD_15_eq_true_iff, Ne, extractLsb'_3_12_eq_zero_iff]; omega

/-! ### The decoder's answer once the opcode is resolved (R68, R70) -/

theorem decodeResolved_of_no_row (h : operandModes op = none) :
    decodeResolved op ws = .error (.undefinedOpcode op) := by
  simp only [decodeResolved, h]

theorem decodeResolved_of_short (h : operandModes op = some modes)
    (hl : ws.length < modes.length) : decodeResolved op ws = .error .truncated := by
  simp only [decodeResolved, h, hl, if_true]

theorem exists_decodeResolved_eq_ok (h : operandModes op = some modes)
    (hl : modes.length ≤ ws.length) : ∃ i rest, decodeResolved op ws = .ok (i, rest) := by
  obtain ⟨i, hi⟩ := instrOf_isSome h
    (os := (ws.take modes.length).map Operand.ofWord) (by simpa using hl)
  exact ⟨i, _, decodeResolved_eq_ok.mpr ⟨modes, h, hl, hi, rfl⟩⟩

/-- Everything the decoder can answer for a resolved opcode. -/
theorem decodeResolved_cases (op : Word) (ws : List Word) :
    (operandModes op = none ∧ decodeResolved op ws = .error (.undefinedOpcode op)) ∨
    ∃ modes, operandModes op = some modes ∧
      ((ws.length < modes.length ∧ decodeResolved op ws = .error .truncated) ∨
        (modes.length ≤ ws.length ∧ ∃ i rest, decodeResolved op ws = .ok (i, rest))) := by
  cases h : operandModes op with
  | none => exact .inl ⟨rfl, decodeResolved_of_no_row h⟩
  | some modes =>
    refine .inr ⟨modes, rfl, (Nat.lt_or_ge ws.length modes.length).imp ?_ ?_⟩
    · exact fun hl => ⟨hl, decodeResolved_of_short h hl⟩
    · exact fun hl => ⟨hl, exists_decodeResolved_eq_ok h hl⟩

/-- The operand words of a well-formed instruction, at its own opcode. -/
theorem decodeResolved_operands (hwf : i.wf = true) (rest : List Word) :
    decodeResolved i.opcode (i.operands.map Operand.toWord ++ rest) = .ok (i, rest) := by
  obtain ⟨modes, hm, hlen, hi⟩ := i.opcodeMap
  have hops := Operand.map_ofWord_toWord (i.wf_iff_operands.mp hwf)
  have hwords : (i.operands.map Operand.toWord).length = modes.length := by simp [hlen]
  refine decodeResolved_eq_ok.mpr ⟨modes, hm, by simp [hlen], ?_, (List.drop_left' hwords).symm⟩
  rw [List.take_left' hwords, hops, hi]

/-- What is read from a resolved opcode has that opcode, and its operands are the words read. -/
theorem encoding_of_decodeResolved (h : decodeResolved op ws = .ok (i, rest)) :
    i.wf = true ∧ ws = i.operands.map Operand.toWord ++ rest ∧ i.opcode = op := by
  obtain ⟨modes, -, -, hi, rfl⟩ := decodeResolved_eq_ok.mp h
  obtain ⟨hop, hops⟩ := opcode_operands_of_instrOf hi
  refine ⟨i.wf_iff_operands.mpr fun o ho => ?_, ?_, hop⟩
  · rw [hops] at ho
    obtain ⟨w, -, rfl⟩ := List.mem_map.mp ho
    exact Operand.wf_ofWord w
  · rw [hops, Operand.map_toWord_ofWord, List.take_append_drop]

/-! ### The opcode word (R69) -/

/-- The opcode word `w0` resolves to the opcode `op` with the registers `x`. -/
def OpcodeWordGives (x : RegBank) (w0 op : Word) : Prop :=
  w0.toNat < 32768 ∧ op = w0 ∨ ∃ r : Fin 8, w0.toNat = 32768 + r.val ∧ op = x[r]

theorem decode_of_opcode (h : OpcodeWordGives x w0 op) (ws : List Word) :
    decode x (w0 :: ws) = decodeResolved op ws := by
  obtain ⟨hlt, rfl⟩ | ⟨r, hr, rfl⟩ := h
  · simp only [decode, Operand.ofWord_lit hlt]
    rw [← Machine.wordOf, Machine.wordOf_setWidth hlt]
  · simp only [decode, Operand.ofWord_reg hr]

theorem decode_of_invalid (h : 32776 ≤ w0.toNat) :
    decode x (w0 :: ws) = .error (.invalidOpcodeWord w0) := by
  simp only [decode, Operand.ofWord_inv h]

theorem opcodeWord_gives_or_invalid (x : RegBank) (w0 : Word) :
    (w0.toNat < 32776 ∧ ∃ op, OpcodeWordGives x w0 op) ∨ 32776 ≤ w0.toNat := by
  obtain ⟨hlt, -⟩ | ⟨r, hr, -⟩ | ⟨hinv, -⟩ := Operand.ofWord_cases w0
  · exact .inl ⟨by omega, w0, .inl ⟨hlt, rfl⟩⟩
  · exact .inl ⟨by omega, x[r], .inr ⟨r, hr, rfl⟩⟩
  · exact .inr hinv

/-! ### Decoder and encoder (R60, R68 to R71) -/

/-- Settles O5: an instruction's opcode word is a literal, and its operand words read back. -/
theorem decodeOfEncodeIsIdentity : Obligations.DecodeOfEncodeIsIdentity := by
  intro x i rest hwf
  have hop : OpcodeWordGives x i.opcode i.opcode := .inl ⟨by have := i.opcode_lt; omega, rfl⟩
  exact (decode_of_opcode hop _).trans (decodeResolved_operands hwf rest)

/-- Settles O6: an opcode word that is not invalid resolves, and what is read is read from it. -/
theorem decodedWordsAreTheEncoding : Obligations.DecodedWordsAreTheEncoding := by
  intro x w0 ws rest i h
  obtain ⟨-, op, hop⟩ | hinv := opcodeWord_gives_or_invalid x w0
  · rw [decode_of_opcode hop] at h
    obtain ⟨hwf, hws, rfl⟩ := encoding_of_decodeResolved h
    exact ⟨hwf, hws, hop.imp (fun h => h.2.symm) fun ⟨r, hr, e⟩ => ⟨r, hr, e.symm⟩⟩
  · rw [decode_of_invalid hinv] at h; cases h

/-- Of the answers, only that of an opcode with no row is this one (R70 (a)). -/
theorem decodeResolved_eq_undefinedOpcode_iff :
    decodeResolved op ws = .error (.undefinedOpcode op) ↔ op.toNat = 20 ∨ 22 ≤ op.toNat := by
  rw [← operandModes_eq_none]
  obtain ⟨hm, hd⟩ | ⟨modes, hm, ⟨-, hd⟩ | ⟨-, i, rest, hd⟩⟩ := decodeResolved_cases op ws <;>
    simp [hm, hd]

theorem decodeResolved_eq_truncated_iff (h : operandModes op = some modes) :
    decodeResolved op ws = .error .truncated ↔ ws.length < modes.length := by
  refine ⟨fun ht => ?_, decodeResolved_of_short h⟩
  by_contra hl
  obtain ⟨i, rest, hd⟩ := exists_decodeResolved_eq_ok h (Nat.not_lt.mp hl)
  rw [hd] at ht; cases ht

theorem exists_decodeResolved_eq_ok_iff (h : operandModes op = some modes) :
    (∃ i rest, decodeResolved op ws = .ok (i, rest)) ↔ modes.length ≤ ws.length := by
  refine ⟨fun ⟨i, rest, hd⟩ => ?_, exists_decodeResolved_eq_ok h⟩
  by_contra hl
  rw [decodeResolved_of_short h (Nat.not_le.mp hl)] at hd; cases hd

/-- Once the opcode is resolved, no answer speaks of the opcode word. -/
theorem decodeResolved_ne_invalidOpcodeWord (w : Word) :
    decodeResolved op ws ≠ .error (.invalidOpcodeWord w) := by
  obtain ⟨-, hd⟩ | ⟨modes, -, ⟨-, hd⟩ | ⟨-, i, rest, hd⟩⟩ := decodeResolved_cases op ws <;>
    simp [hd]

/-- Settles O7: each answer of the decoder, for an opcode that resolves and for an invalid word. -/
theorem decoderRejectsByName : Obligations.DecoderRejectsByName := by
  refine fun x w0 ws => ⟨fun op hop => ?_, fun w => ?_⟩
  · rw [decode_of_opcode hop]
    exact ⟨decodeResolved_eq_undefinedOpcode_iff, fun modes hm =>
      ⟨decodeResolved_eq_truncated_iff hm, exists_decodeResolved_eq_ok_iff hm⟩⟩
  · obtain ⟨hlt, op, hop⟩ | hinv := opcodeWord_gives_or_invalid x w0
    · rw [decode_of_opcode hop]
      refine iff_of_false (decodeResolved_ne_invalidOpcodeWord w) fun ⟨hinv, _⟩ => ?_
      omega
    · simp [decode_of_invalid hinv, hinv, eq_comm]

/-- Settles O8: each list of words is the encoding of its instruction. -/
theorem writtenOutWordsDecode : Obligations.WrittenOutWordsDecode :=
  have read (i : Instr) (hwf : i.wf = true) :
      decode (Vector.replicate 8 0) (encode i ++ []) = .ok (i, []) :=
    decodeOfEncodeIsIdentity _ i [] hwf
  ⟨read (.set (.reg 0) (.reg 3)) rfl, read (.wmem (.lit 100) (.reg 1)) rfl,
    read (.gt (.reg 2) (.lit 7) (.lit 3)) rfl, read (.add (.reg 1) (.reg 0) (.lit 10)) rfl,
    read (.jt (.reg 0) (.lit 50)) rfl, read (.out (.reg 1)) rfl, read .noop rfl⟩

end Sys2Proof

namespace Sys2Proof.Machine

/-! ### The operand modes on raw words (R64, R65, R67, R69) -/

/-- Settles O2, one class of the word at a time. -/
theorem valueModeOnEveryWord : Obligations.ValueModeOnEveryWord := by
  refine fun s w => ⟨fun h => ?_, fun r h => ?_, fun h => ?_⟩
  · rw [Operand.ofWord_lit h, State.resolveValue_lit, wordOf_setWidth h]
  · rw [Operand.ofWord_reg h, State.resolveValue_reg]; rfl
  · rw [Operand.ofWord_inv h, State.resolveValue_inv]

/-- Settles O3, one class of the word at a time. -/
theorem registerIndexModeOnEveryWord : Obligations.RegisterIndexModeOnEveryWord := by
  refine fun s w v => ⟨fun h => ⟨?_, s.regWrite_literal w v⟩,
    fun r h => ⟨?_, s.regWrite_index r v⟩, fun h => ?_⟩
  · rw [Operand.ofWord_lit h, resolveRegIndex_lit, wordOf_setWidth h]
  · rw [Operand.ofWord_reg h, resolveRegIndex_reg]
  · rw [Operand.ofWord_inv h, resolveRegIndex_inv]

theorem State.fetchOpcode_of_memRead {s : State} {w0 : Word} (h : s.memRead s.pc = .ok w0) :
    s.fetchOpcode = s.resolveValue (Operand.ofWord w0) := by
  rw [State.fetchOpcode, h, ok_bind]

/-- A fault of the opcode's resolution is the fault of the fetch (R85 item 2). -/
theorem State.fetch_of_fetchOpcode_error {s : State} {c : FaultCause}
    (h : s.fetchOpcode = .error c) : s.fetch = .error c := by
  rw [State.fetch, h, error_bind]

/-- Settles O11: the fetch resolves the opcode word as Value mode resolves every word. -/
theorem opcodeWordIsValueMode : Obligations.OpcodeWordIsValueMode := by
  intro s w0 hr hw
  have hop := State.fetchOpcode_of_memRead hw
  obtain ⟨hlit, hreg, hinv⟩ := valueModeOnEveryWord s w0
  refine ⟨fun h => hop.trans (hlit h), fun r h => hop.trans (hreg r h), fun h => ?_⟩
  rw [step_running hr, State.fetch_of_fetchOpcode_error (hop.trans (hinv h))]

end Sys2Proof.Machine
end

section
/-! PROOFS. Dispatch (spec/40_dispatch.md): the first fault of an instruction and of its fetch, in the
order of R85, and what a step from each run state does (R80, R82, R84). -/

namespace Sys2Proof.Machine

/-! ### The fault that a sequence of checks raises -/

/-- The result `r` is the fault `f`, or completes where `f` names none. -/
inductive FaultsAs {α : Type} : Except FaultCause α → Option FaultCause → Prop where
  | ok (a : α) : FaultsAs (.ok a) none
  | error (c : FaultCause) : FaultsAs (.error c) (some c)

section
variable {α β : Type} {r : Except FaultCause α} {f g : Option FaultCause} {c : FaultCause}

theorem FaultsAs.eq_error_iff (h : FaultsAs r f) : r = .error c ↔ f = some c := by
  cases h <;> simp

/-- A check that names no fault passes. -/
theorem FaultsAs.eq_ok {r : Except FaultCause Unit} (h : FaultsAs r f) (hf : f = none) :
    r = .ok () := by
  subst hf; cases h; rfl

/-- A sequence raises the fault of its first part, or else that of the rest. -/
theorem FaultsAs.bind {k : α → Except FaultCause β} (hr : FaultsAs r f)
    (hk : ∀ a, r = .ok a → FaultsAs (k a) g) : FaultsAs (r >>= k) (f.or g) := by
  cases hr with
  | ok a => exact hk a rfl
  | error c => exact .error c

/-- What is computed from a result without a check adds no fault. -/
theorem FaultsAs.bind_ok (h : FaultsAs r f) (k : α → β) :
    FaultsAs (r >>= fun a => .ok (k a)) f := by
  cases h with
  | ok a => exact .ok _
  | error c => exact .error c

end

variable {s t : State}

/-! ### The fault of each operation that an instruction calls -/

theorem resolveValue_faultsAs (s : State) (o : Operand) :
    FaultsAs (s.resolveValue o) (invalidIn o) := by
  cases o with
  | lit v => exact .ok _
  | reg r => exact .ok _
  | inv w => exact .error _

theorem resolveRegIndex_faultsAs (d : Operand) : FaultsAs (resolveRegIndex d) (invalidIn d) := by
  cases d with
  | lit v => exact .ok _
  | reg r => exact .ok _
  | inv w => exact .error _

theorem genericWrite_faultsAs (s : State) (d : Operand) (v : Word) :
    FaultsAs (s.genericWrite d v) (invalidIn d) := by
  cases d with
  | lit a => exact .ok _
  | reg r => exact .ok _
  | inv w => exact .error _

/-- R67, D6: a literal destination faults at its write. -/
theorem regWrite_faultsAs {d : Operand} {r : RegDest} (hd : resolveRegIndex d = .ok r) (s : State)
    (v : Word) : FaultsAs (s.regWrite r v) (literalDest d) := by
  cases d with
  | lit a => cases hd; exact .error _
  | reg i => cases hd; exact .ok _
  | inv w => cases hd

theorem push_faultsAs (s : State) (op v : Word) : FaultsAs (s.push op v) (fullStack s op) := by
  unfold State.push fullStack
  split
  · exact .error _
  · exact .ok _

theorem pop_faultsAs (s : State) (op : Word) : FaultsAs (s.pop op) (emptyStack s op) := by
  unfold State.pop emptyStack
  cases s.stack with
  | nil => exact .error _
  | cons v rest => exact .ok _

theorem modValue_faultsAs {b : Operand} {vb : Word} (hb : s.resolveValue b = .ok vb) (va : Word) :
    FaultsAs (modValue va vb) (zeroDivisor s b) := by
  have hzero : vb.toNat = 0 ↔ vb = 0 := BitVec.toNat_inj (y := 0)
  simp only [modValue, zeroDivisor, hb, hzero]
  split
  · exact .error _
  · exact .ok _

theorem invalidIn_ofWord (w : Word) :
    invalidIn (Operand.ofWord w) =
      if 32776 ≤ w.toNat then some (.invalidOperand w) else none := by
  obtain ⟨hw, h⟩ | ⟨i, hw, h⟩ | ⟨hw, h⟩ := Operand.ofWord_cases w
  · rw [h, if_neg (by omega)]; rfl
  · rw [h, if_neg (by omega)]; rfl
  · rw [h, if_pos hw]; rfl

/-- R103: the data read faults where the address is unreadable, then where its word is invalid. -/
theorem dataRead_faultsAs {srcAddr : Operand} {a : Word} (ha : s.resolveValue srcAddr = .ok a) :
    FaultsAs (s.memRead (addrOf a) >>= fun m => s.resolveValue (Operand.ofWord m))
      (dataReadFault s srcAddr) := by
  simp only [dataReadFault, ha]
  cases s.memRead (addrOf a) with
  | error c => exact .error c
  | ok m =>
    simp only [ok_bind, ← invalidIn_ofWord]
    exact resolveValue_faultsAs s _

theorem ternary_faultsAs {f : Word → Word → Except FaultCause Word} {g : Option FaultCause}
    {dst a b : Operand} (hf : ∀ va vb, s.resolveValue b = .ok vb → FaultsAs (f va vb) g) :
    FaultsAs (s.ternary f dst a b)
      ((invalidIn a).or ((invalidIn b).or (g.or (invalidIn dst)))) :=
  (resolveValue_faultsAs s a).bind fun va _ => (resolveValue_faultsAs s b).bind fun vb hb =>
    (hf va vb hb).bind fun v _ => (genericWrite_faultsAs s dst v).bind_ok _

theorem branch_faultsAs (s : State) (taken : Word → Bool) (cond target : Operand) :
    FaultsAs (s.branch taken cond target) ((invalidIn cond).or (invalidIn target)) :=
  (resolveValue_faultsAs s cond).bind fun _ _ => (resolveValue_faultsAs s target).bind_ok _

/-! ### The first fault of an instruction (R85 items 4 to 6) -/

/-- Every instruction is an effect that raises the first fault its rule lists, and completes where
none applies. -/
theorem exec_eq_finish (i : Instr) (s : State) :
    ∃ r, exec i s = s.finish r ∧ FaultsAs r (firstFault i s) := by
  have value := resolveValue_faultsAs s
  cases i with
  | halt => exact ⟨_, rfl, .ok _⟩
  | set dst src =>
    exact ⟨_, rfl, (resolveRegIndex_faultsAs dst).bind fun r hr => (value src).bind fun v _ =>
      (regWrite_faultsAs hr s v).bind_ok _⟩
  | push src => exact ⟨_, rfl, (value src).bind fun v _ => (push_faultsAs s 2 v).bind_ok _⟩
  | pop dst =>
    exact ⟨_, rfl, (pop_faultsAs s 3).bind fun p _ => (genericWrite_faultsAs p.2 dst p.1).bind_ok _⟩
  | eq dst a b => exact ⟨_, rfl, ternary_faultsAs fun _ _ _ => .ok _⟩
  | gt dst a b => exact ⟨_, rfl, ternary_faultsAs fun _ _ _ => .ok _⟩
  | jmp target => exact ⟨_, rfl, (value target).bind_ok _⟩
  | jt cond target => exact ⟨_, rfl, branch_faultsAs s _ cond target⟩
  | jf cond target => exact ⟨_, rfl, branch_faultsAs s _ cond target⟩
  | add dst a b => exact ⟨_, rfl, ternary_faultsAs fun _ _ _ => .ok _⟩
  | mult dst a b => exact ⟨_, rfl, ternary_faultsAs fun _ _ _ => .ok _⟩
  | mod dst a b => exact ⟨_, rfl, ternary_faultsAs fun va _ hb => modValue_faultsAs hb va⟩
  | and dst a b => exact ⟨_, rfl, ternary_faultsAs fun _ _ _ => .ok _⟩
  | or dst a b => exact ⟨_, rfl, ternary_faultsAs fun _ _ _ => .ok _⟩
  | not dst a =>
    exact ⟨_, rfl, (value a).bind fun va _ => (genericWrite_faultsAs s dst _).bind_ok _⟩
  | rmem dst srcAddr =>
    refine ⟨_, rfl, (resolveRegIndex_faultsAs dst).bind fun r hr =>
      (value srcAddr).bind fun a ha => ?_⟩
    rw [← bind_assoc]
    exact (dataRead_faultsAs ha).bind fun v _ => (regWrite_faultsAs hr s v).bind_ok _
  | wmem dstAddr src => exact ⟨_, rfl, (value dstAddr).bind fun a _ => (value src).bind_ok _⟩
  | call target => exact ⟨_, rfl, (value target).bind fun v _ => (push_faultsAs s 17 _).bind_ok _⟩
  | ret => exact ⟨_, rfl, (pop_faultsAs s 18).bind_ok _⟩
  | out ch => exact ⟨_, rfl, (value ch).bind_ok _⟩
  | noop => exact ⟨_, rfl, .ok _⟩

/-- Settles O17: each effect raises the fault that its rule lists first. -/
theorem instructionTakesItsFirstFault : Obligations.InstructionTakesItsFirstFault := by
  intro i s c h
  obtain ⟨r, hexec, hr⟩ := exec_eq_finish i s
  rw [hexec, hr.eq_error_iff.mpr h, State.finish_error]

/-- Settles O15: an instruction that takes no fault does not end Faulted, so the step took one, from
the state before. -/
theorem faultsArePrecise : Obligations.FaultsArePrecise := by
  intro s t h hfaulted
  obtain ⟨hr, ⟨c, rfl⟩ | ⟨i, -, hdoes⟩⟩ := step_next h
  · exact ⟨rfl, rfl, c.kind_ne_noFault⟩
  · exact absurd hfaulted (hdoes.run_ne_faulted hr)

/-- Settles O14: the record update of `raise` writes the run state and the record alone. -/
theorem raiseRecordsKindValueAddress : Obligations.RaiseRecordsKindValueAddress := by
  intro s c
  exact ⟨s.raise_run c, s.raise_fault c, s.raise_cfg c, s.raise_mem c, s.raise_x c,
    s.raise_stack c, s.raise_pc c, s.raise_outlog c, s.raise_traceEn c⟩

/-! ### A step from each run state (R80) -/

/-- A fault of the fetch is the fault of the step. -/
theorem step_of_fetch_error {c : FaultCause} (hr : s.run = .running) (hf : s.fetch = .error c) :
    step s = .next (s.raise c) := by
  rw [step_running hr, hf]

theorem step_of_fetch_ok {i : Instr} (hr : s.run = .running) (hf : s.fetch = .ok i) :
    step s = exec i s := by
  rw [step_running hr, hf]

theorem exists_step_eq_next (hr : s.run = .running) : ∃ t, step s = .next t := by
  cases hf : s.fetch with
  | error c => exact ⟨_, step_of_fetch_error hr hf⟩
  | ok i =>
    obtain ⟨t, hexec, -⟩ := exec_answers i s
    exact ⟨t, (step_of_fetch_ok hr hf).trans hexec⟩

theorem step_outlog_cases (h : step s = .next t) :
    t.outlog = s.outlog ∨ ∃ v, t.outlog = s.outlog ++ [v] := by
  obtain ⟨-, ⟨c, rfl⟩ | ⟨i, -, hdoes⟩⟩ := step_next h
  · exact .inl rfl
  · exact hdoes.outlog_cases.imp id fun ⟨_, _, v, _, hlog, _⟩ => ⟨v, hlog⟩

/-- Settles O10: a fetch and an instruction always answer, and the other two run states are arms of
`step` of their own. -/
theorem stepIsTotalFromRunningOnly : Obligations.StepIsTotalFromRunningOnly := by
  refine fun s => ⟨fun hr => ?_, fun hr => ?_, fun hr => ?_⟩
  · obtain ⟨t, ht⟩ := exists_step_eq_next hr
    exact ⟨t, ht, step_outlog_cases ht⟩
  · simp only [step, hr]
  · simp only [step, hr]

/-! ### The faults of the fetch in word order (R82, R85 items 1 and 4) -/

/-- The fault of the check that a fetched operand word gets in its mode. -/
def modeFault : Mode → Operand → Option FaultCause
  | .rawAddress, _ => none
  | .value, o => invalidIn o
  | .registerIndex, o => invalidIn o

theorem checkMode_faultsAs (m : Mode) (o : Operand) : FaultsAs (checkMode m o) (modeFault m o) := by
  cases m with
  | rawAddress => exact .ok _
  | value => cases o <;> constructor
  | registerIndex => cases o <;> constructor

theorem modeFault_ofWord {m : Mode} (h : m ≠ .rawAddress) (w : Word) :
    modeFault m (Operand.ofWord w) =
      if 32776 ≤ w.toNat then some (.invalidOperand w) else none := by
  cases m with
  | rawAddress => exact absurd rfl h
  | value => exact invalidIn_ofWord w
  | registerIndex => exact invalidIn_ofWord w

theorem checkMode_ofWord_invalid {m : Mode} {w : Word} (hm : m ≠ .rawAddress)
    (hw : 32776 ≤ w.toNat) : checkMode m (Operand.ofWord w) = .error (.invalidOperand w) :=
  (checkMode_faultsAs m _).eq_error_iff.mpr (by rw [modeFault_ofWord hm, if_pos hw])

theorem checkMode_ofWord_ok {m : Mode} {w : Word} (h : w.toNat < 32776 ∨ m = .rawAddress) :
    checkMode m (Operand.ofWord w) = .ok () := by
  refine (checkMode_faultsAs m _).eq_ok ?_
  by_cases hm : m = .rawAddress
  · rw [hm]; rfl
  · have hw : w.toNat < 32776 := h.resolve_right hm
    rw [modeFault_ofWord hm, if_neg (by omega)]

/-- Once the operand words before it are read and pass their checks, the fault of operand word `k`
is the fault of reading the operands. -/
theorem State.fetchOperands_error_at {a : Addr} {ms : List Mode} {k : Nat} {m : Mode}
    {c : FaultCause}
    (hbefore : ∀ j < k, ∃ w, s.memRead (a + BitVec.ofNat 15 j) = .ok w ∧
      (w.toNat < 32776 ∨ ms[j]? = some .rawAddress))
    (hm : ms[k]? = some m)
    (hk : (s.memRead (a + BitVec.ofNat 15 k) >>= fun w => checkMode m (Operand.ofWord w)) =
      .error c) :
    s.fetchOperands a ms = .error c := by
  induction k generalizing a ms with
  | zero =>
    obtain ⟨ms, rfl⟩ := List.head?_eq_some_iff.mp (List.head?_eq_getElem?.trans hm)
    rw [BitVec.add_zero] at hk
    rw [State.fetchOperands_cons]
    obtain hread | ⟨w, hread, hcheck⟩ := bind_eq_error.mp hk
    · rw [hread, error_bind]
    · rw [hread, ok_bind, hcheck, error_bind]
  | succ k ih =>
    cases ms with
    | nil => cases hm
    | cons m0 ms =>
      obtain ⟨w, hread, hw⟩ := hbefore 0 (Nat.succ_pos k)
      rw [BitVec.add_zero] at hread
      have hcheck : checkMode m0 (Operand.ofWord w) = .ok () :=
        checkMode_ofWord_ok (by simpa using hw)
      have hrest : s.fetchOperands (a + 1) ms = .error c := by
        refine ih (fun j hj => ?_) hm ?_
        · rw [addr_offset_succ]; exact hbefore (j + 1) (Nat.succ_lt_succ hj)
        · rw [addr_offset_succ]; exact hk
      rw [State.fetchOperands_cons, hread, ok_bind, hcheck, ok_bind, hrest, error_bind]

section
variable {op : Word} {modes : List Mode} (hop : s.fetchOpcode = .ok op)
  (hmodes : operandModes op = some modes)
include hop hmodes

theorem State.fetch_of_fetchOperands_error {c : FaultCause}
    (h : s.fetchOperands (s.pc + 1) modes = .error c) : s.fetch = .error c := by
  simp only [State.fetch, hop, ok_bind, hmodes, h, error_bind]

theorem State.fetch_of_fetchOperands_ok {os : List Operand} {i : Instr}
    (h : s.fetchOperands (s.pc + 1) modes = .ok os) (hi : instrOf op os = some i) :
    s.fetch = .ok i := by
  simp only [State.fetch, hop, ok_bind, hmodes, h, hi]

end

/-- Settles O13: operand word `k` faults in its read or in its check. -/
theorem fetchFaultsInWordOrder : Obligations.FetchFaultsInWordOrder := by
  intro s hr
  refine ⟨fun c h => step_of_fetch_error hr (State.fetch_of_memRead_error h), ?_⟩
  intro op modes hop hmodes k hk hbefore
  simp only [← addr_offset_succ] at hbefore ⊢
  have hmode : modes[k]? = some modes[k] := List.getElem?_eq_getElem hk
  have fault (c : FaultCause)
      (h : (s.memRead (s.pc + 1 + BitVec.ofNat 15 k) >>=
        fun w => checkMode modes[k] (Operand.ofWord w)) = .error c) :
      step s = .next (s.raise c) :=
    step_of_fetch_error hr (State.fetch_of_fetchOperands_error hop hmodes
      (State.fetchOperands_error_at hbefore hmode h))
  refine ⟨fun c hread => fault c ?_, fun w hread hw hraw => fault _ ?_⟩
  · rw [hread, error_bind]
  · rw [hread, ok_bind]
    exact checkMode_ofWord_invalid (fun e => hraw (e ▸ hmode)) hw

/-! ### The instruction at the pc (R82, R86) -/

/-- The first fault of the checks that fetched operand words get in their modes, or else `rest`. -/
def firstModeFault (mos : List (Mode × Operand)) (rest : Option FaultCause) : Option FaultCause :=
  mos.foldr (fun mo r => (modeFault mo.1 mo.2).or r) rest

theorem firstModeFault_eq_or (mos : List (Mode × Operand)) (rest : Option FaultCause) :
    firstModeFault mos rest = (firstModeFault mos none).or rest := by
  induction mos with
  | nil => rfl
  | cons mo mos ih =>
    simp only [firstModeFault, List.foldr_cons] at ih ⊢
    rw [ih, Option.or_assoc]

/-- The checks that `State.fetchOperands` makes of its words, one after the other. -/
theorem checkModes_faultsAs (mos : List (Mode × Operand)) :
    FaultsAs (mos.foldr (fun mo r => do checkMode mo.1 mo.2; r) (.ok ()))
      (firstModeFault mos none) := by
  induction mos with
  | nil => exact .ok _
  | cons mo mos ih => exact (checkMode_faultsAs mo.1 mo.2).bind fun _ _ => ih

/-- R85: the faults of an instruction begin with those of its operands' checks at the fetch. -/
theorem firstFault_eq_firstModeFault (i : Instr) (s : State) :
    ∃ modes rest, operandModes i.opcode = some modes ∧
      firstFault i s = firstModeFault (modes.zip i.operands) rest := by
  cases i with
  | jmp target => exact ⟨_, none, rfl, Option.or_none.symm⟩
  | jt cond target => exact ⟨_, none, rfl, congrArg (invalidIn cond).or Option.or_none.symm⟩
  | jf cond target => exact ⟨_, none, rfl, congrArg (invalidIn cond).or Option.or_none.symm⟩
  | wmem dstAddr src => exact ⟨_, none, rfl, congrArg (invalidIn dstAddr).or Option.or_none.symm⟩
  | out ch => exact ⟨_, none, rfl, Option.or_none.symm⟩
  | _ => exact ⟨_, _, rfl, rfl⟩

/-- The fetch of a well-formed instruction that stands at the pc answers that instruction or its
first fault. -/
theorem State.HoldsAtPc.fetch {i : Instr} (h : s.HoldsAtPc i) (hwf : i.wf = true) :
    s.fetch = .ok i ∨ ∃ c, s.fetch = .error c ∧ firstFault i s = some c := by
  obtain ⟨⟨w0, hw0, hresolve⟩, hwords⟩ := h
  have hop : s.fetchOpcode = .ok i.opcode := (State.fetchOpcode_of_memRead hw0).trans hresolve
  obtain ⟨modes, rest, hmodes, hfirst⟩ := firstFault_eq_firstModeFault i s
  have hlen : i.operands.length = modes.length := by
    obtain ⟨modes', hmodes', hlen, -⟩ := i.opcodeMap
    rw [Option.some.inj (hmodes.symm.trans hmodes'), hlen]
  have hoperands := State.fetchOperands_of_words (a := s.pc + 1) hlen
    (i.wf_iff_operands.mp hwf) (fun k o ho => by rw [addr_offset_succ]; exact hwords k o ho)
  have hchecks := checkModes_faultsAs (modes.zip i.operands)
  rw [hfirst, firstModeFault_eq_or]
  generalize firstModeFault (modes.zip i.operands) none = f at hchecks
  generalize List.foldr _ _ _ = r at hchecks hoperands
  cases hchecks with
  | ok u =>
    exact .inl (State.fetch_of_fetchOperands_ok hop hmodes hoperands (instrOf_opcode_operands i))
  | error c =>
    exact .inr ⟨c, State.fetch_of_fetchOperands_error hop hmodes hoperands, rfl⟩

/-- Settles O9: a fault of the fetch is the instruction's first fault, which `exec` takes too. -/
theorem stepRunsTheInstructionAtPc : Obligations.StepRunsTheInstructionAtPc := by
  intro s i hr hwf hi
  obtain hf | ⟨c, hf, hfirst⟩ := hi.fetch hwf
  · exact step_of_fetch_ok hr hf
  · rw [step_of_fetch_error hr hf, instructionTakesItsFirstFault i s c hfirst]

end Sys2Proof.Machine
end

section
/-! PROOFS. Data movement (spec/41_data_movement.md): the words, the faults in order and the next
state of `set`, `push`, `pop`, `rmem` and `wmem` (R100 to R104), and what a push and the pop after
it come to (R105). The faults are read off `firstFault`; the effects are the completions below. -/

namespace Sys2Proof.Machine

variable {s t u : State} {dst src srcAddr dstAddr o : Operand} {v a : Word}

/-! ### Checks that pass -/

/-- A check that completes names no fault. -/
theorem FaultsAs.eq_none {α : Type} {r : Except FaultCause α} {f : Option FaultCause} {x : α}
    (h : FaultsAs r f) (hr : r = .ok x) : f = none := by
  subst hr; cases h; rfl

theorem invalidIn_eq_none_of_resolveValue (h : s.resolveValue o = .ok v) : invalidIn o = none :=
  (resolveValue_faultsAs s o).eq_none h

theorem invalidIn_eq_none_of_ne_inv (h : ∀ w, o ≠ .inv w) : invalidIn o = none := by
  cases o with
  | lit l => rfl
  | reg i => rfl
  | inv w => exact absurd rfl (h w)

/-! ### The effect of each instruction once its checks pass -/

theorem exec_set_reg (hv : s.resolveValue src = .ok v) (i : Fin 8) :
    exec (.set (.reg i) src) s = .next ((s.writeReg i v).withPc (s.pc + 3)) := by
  have heffect : exec (.set (.reg i) src) s =
      s.finish (s.resolveValue src >>= fun v => .ok ((s.writeReg i v).advance 3)) := rfl
  rw [heffect, hv]; rfl

/-- R101: the operand is resolved, then pushed if the capacity allows. -/
theorem exec_push (src : Operand) (s : State) : exec (.push src) s =
    s.finish (s.resolveValue src >>= fun v => s.push 2 v >>= fun t => .ok (t.advance 2)) := rfl

/-- R102: the write of the top is left to the class of the destination. -/
theorem exec_pop_of_stack {rest : List Word} (hs : s.stack = v :: rest) :
    exec (.pop dst) s =
      s.finish ((s.withStack rest).genericWrite dst v >>= fun t => .ok (t.advance 2)) := by
  have heffect : exec (.pop dst) s =
      s.finish (s.pop 3 >>= fun p => p.2.genericWrite dst p.1 >>= fun t => .ok (t.advance 2)) := rfl
  rw [heffect, State.pop_eq_ok.mpr ⟨rest, hs, rfl⟩]; rfl

theorem exec_rmem_reg {m : Word} (ha : s.resolveValue srcAddr = .ok a)
    (hm : s.memRead (addrOf a) = .ok m) (hv : s.resolveValue (Operand.ofWord m) = .ok v)
    (i : Fin 8) :
    exec (.rmem (.reg i) srcAddr) s = .next ((s.writeReg i v).withPc (s.pc + 3)) := by
  have heffect : exec (.rmem (.reg i) srcAddr) s =
      s.finish (s.resolveValue srcAddr >>= fun a => s.memRead (addrOf a) >>= fun m =>
        s.resolveValue (Operand.ofWord m) >>= fun v => .ok ((s.writeReg i v).advance 3)) := rfl
  rw [heffect, ha, ok_bind, hm, ok_bind, hv]; rfl

theorem exec_wmem (ha : s.resolveValue dstAddr = .ok a) (hv : s.resolveValue src = .ok v) :
    exec (.wmem dstAddr src) s = .next ((s.writeMem (addrOf a) v).withPc (s.pc + 3)) := by
  have heffect : exec (.wmem dstAddr src) s =
      s.finish (s.resolveValue dstAddr >>= fun a => s.resolveValue src >>= fun v =>
        .ok ((s.writeMem (addrOf a) v).advance 3)) := rfl
  rw [heffect, ha, ok_bind, hv]; rfl

/-! ### Pushes and pops that take no fault -/

/-- A faulting effect ends Faulted. -/
theorem State.finish_eq_running {r : Except FaultCause State} (h : s.finish r = .next t)
    (hr : t.run = .running) : r = .ok t := by
  cases r with
  | ok q => rw [State.finish_ok] at h; cases h; rfl
  | error c => rw [State.finish_error] at h; cases h; simp at hr

/-- R101: a push that leaves the machine Running put the value of its operand on top. -/
theorem exec_push_eq_running (h : exec (.push src) s = .next t) (hr : t.run = .running) :
    ∃ v, s.resolveValue src = .ok v ∧ t = (s.withStack (v :: s.stack)).withPc (s.pc + 2) := by
  rw [exec_push] at h
  obtain ⟨v, hv, hpush⟩ := bind_eq_ok.mp (State.finish_eq_running h hr)
  obtain ⟨q, hq, hadvance⟩ := bind_eq_ok.mp hpush
  obtain ⟨-, rfl⟩ := State.push_eq_ok.mp hq
  cases hadvance
  exact ⟨v, hv, rfl⟩

/-- A generic write reaches neither the stack nor the pc, so a pc set before it may be set after. -/
theorem State.genericWrite_withPc_eq_ok {p : Addr} (h : (s.withPc p).genericWrite dst v = .ok t) :
    ∃ g, s.genericWrite dst v = .ok g ∧ t = g.withPc p ∧ g.stack = s.stack := by
  obtain ⟨m, rfl, rfl⟩ | ⟨i, rfl, rfl⟩ := State.genericWrite_eq_ok.mp h
  · exact ⟨_, rfl, rfl, rfl⟩
  · exact ⟨_, rfl, rfl, rfl⟩

/-- R105: the pop takes the pushed value off again, so it is a generic write in the state before
both. -/
theorem exec_push_pop (hpush : exec (.push src) s = .next t) (ht : t.run = .running)
    (hpop : exec (.pop dst) t = .next u) (hu : u.run = .running) :
    ∃ v g, s.resolveValue src = .ok v ∧ s.genericWrite dst v = .ok g ∧
      u = g.withPc (s.pc + 4) ∧ u.stack = s.stack := by
  obtain ⟨v, hv, rfl⟩ := exec_push_eq_running hpush ht
  rw [exec_pop_of_stack (v := v) (rest := s.stack) rfl] at hpop
  obtain ⟨q, hwrite, hadvance⟩ := bind_eq_ok.mp (State.finish_eq_running hpop hu)
  obtain ⟨g, hg, rfl, hstack⟩ := State.genericWrite_withPc_eq_ok (s := s) (p := s.pc + 2) hwrite
  cases hadvance
  have hpc : s.pc + 2 + 2 = s.pc + 4 := BitVec.add_assoc s.pc 2 2
  exact ⟨v, g, hv, hg, congrArg g.withPc hpc, hstack⟩

@[simp] theorem State.memRead_advance (s : State) (n : Nat) (m : Addr) :
    (s.advance n).memRead m = s.memRead m := rfl
@[simp] theorem State.memRead_withStack (s : State) (st : List Word) (m : Addr) :
    (s.withStack st).memRead m = s.memRead m := rfl

/-- Two pops to memory addresses that differ leave the top at the first, the entry below it at the
second. -/
theorem exec_pop_pop_memRead {va vb : Word} {rest : List Word} {m0 m1 : Addr} (hne : m0 ≠ m1)
    (hs : s.stack = vb :: va :: rest) (h0 : exec (.pop (.lit m0)) s = .next t)
    (h1 : exec (.pop (.lit m1)) t = .next u) :
    u.memRead m0 = .ok vb ∧ u.memRead m1 = .ok va ∧ u.stack = rest := by
  rw [exec_pop_of_stack hs] at h0
  cases h0
  rw [exec_pop_of_stack (v := va) (rest := rest) rfl] at h1
  cases h1
  refine ⟨?_, ?_, rfl⟩
  · rw [State.memRead_advance, State.memRead_writeMem_other _ _ hne, State.memRead_withStack,
      State.memRead_advance, State.memRead_writeMem_same]
  · rw [State.memRead_advance, State.memRead_writeMem_same]

/-- Settles O37: the pair law by running the pop from where the push ends, and LIFO by the entries
that two pushes leave on the stack. -/
theorem pushThenPopIsAGenericWrite : Obligations.PushThenPopIsAGenericWrite := by
  refine ⟨fun s t u src dst _ hpush ht hpop hu => exec_push_pop hpush ht hpop hu, ?_⟩
  intro s t u v w a b m0 m1 _ hne hpusha ht hpushb hu hpop0 hpop1
  obtain ⟨va, hva, rfl⟩ := exec_push_eq_running hpusha ht
  obtain ⟨vb, hvb, rfl⟩ := exec_push_eq_running hpushb hu
  exact ⟨va, vb, hva, hvb, exec_pop_pop_memRead hne rfl hpop0 hpop1⟩

/-! ### The rules of the instructions (R100 to R104) -/

/-- Settles O32, with the faults in the order of R100. -/
theorem setWritesItsRegister : Obligations.SetWritesItsRegister := by
  intro s dst src
  refine ⟨rfl, ?_, ?_, fun v hv => ⟨fun hs => State.resolveValue_lt hs hv, ?_, ?_⟩⟩
  · rintro w rfl
    exact instructionTakesItsFirstFault _ _ _ rfl
  · rintro w hdst rfl
    exact instructionTakesItsFirstFault _ _ _
      (by rw [firstFault, invalidIn_eq_none_of_ne_inv hdst]; rfl)
  · rintro m rfl
    exact instructionTakesItsFirstFault _ _ _
      (by rw [firstFault, invalidIn_eq_none_of_resolveValue hv]; rfl)
  · rintro i rfl
    exact exec_set_reg hv i

/-- Settles O33, on each side of the capacity. -/
theorem pushPutsTheValueOnTop : Obligations.PushPutsTheValueOnTop := by
  intro s src
  refine ⟨rfl, ?_, fun v hv => ⟨fun hfull => ?_, fun hroom => ?_⟩⟩
  · rintro w rfl
    exact instructionTakesItsFirstFault _ _ _ rfl
  · exact instructionTakesItsFirstFault _ _ _
      (by rw [firstFault, invalidIn_eq_none_of_resolveValue hv, fullStack, if_pos hfull]; rfl)
  · rw [exec_push, hv, ok_bind, State.push_eq_ok.mpr ⟨hroom, rfl⟩]; rfl

/-- Settles O34: the stack decides first, then the class of the destination. -/
theorem popWritesTheTopToItsDestination : Obligations.PopWritesTheTopToItsDestination := by
  intro s dst
  refine ⟨rfl, fun hempty => ?_, fun v rest hs => ?_⟩
  · exact instructionTakesItsFirstFault _ _ _ (by rw [firstFault, emptyStack, if_pos hempty]; rfl)
  · rw [exec_pop_of_stack hs]
    refine ⟨?_, ?_, ?_⟩
    · rintro w rfl; rfl
    · rintro i rfl; rfl
    · rintro m rfl; rfl

/-- R103: once both operands resolve, the data read's fault comes before a literal
destination's. -/
theorem firstFault_rmem (hdst : ∀ w, dst ≠ .inv w) (ha : s.resolveValue srcAddr = .ok a) :
    firstFault (.rmem dst srcAddr) s = (dataReadFault s srcAddr).or (literalDest dst) := by
  rw [firstFault, invalidIn_eq_none_of_ne_inv hdst, invalidIn_eq_none_of_resolveValue ha]; rfl

/-- Settles O35: the faults of the operands, then of the data read, then of a literal
destination. -/
theorem rmemReadsAndResolvesTheWord : Obligations.RmemReadsAndResolvesTheWord := by
  intro s dst srcAddr
  refine ⟨rfl, ?_, ?_, fun a hdst ha => ?_⟩
  · rintro w rfl
    exact instructionTakesItsFirstFault _ _ _ rfl
  · rintro w hdst rfl
    exact instructionTakesItsFirstFault _ _ _
      (by rw [firstFault, invalidIn_eq_none_of_ne_inv hdst]; rfl)
  rw [← addrOf_eq_ofNat]
  have hread := dataRead_faultsAs ha
  have hfirst := firstFault_rmem hdst ha
  refine ⟨fun c hc => ?_, fun m hm => ⟨fun hinv => ?_, fun v hv => ?_⟩⟩
  · refine instructionTakesItsFirstFault _ _ _ ?_
    rw [hfirst, hread.eq_error_iff.mp (by rw [hc, error_bind])]; rfl
  · refine instructionTakesItsFirstFault _ _ _ ?_
    rw [hfirst, hread.eq_error_iff.mp (by rw [hm, ok_bind, Operand.ofWord_inv hinv]; rfl)]; rfl
  · refine ⟨fun hs => State.resolveValue_lt hs hv, ?_, ?_⟩
    · rintro n rfl
      refine instructionTakesItsFirstFault _ _ _ ?_
      rw [hfirst, hread.eq_none (by rw [hm, ok_bind, hv])]; rfl
    · rintro i rfl
      exact exec_rmem_reg ha hm hv i

/-- Settles O36: `dstAddr` is checked before `src`, and nothing else faults. -/
theorem wmemStoresTheValue : Obligations.WmemStoresTheValue := by
  intro s dstAddr src
  refine ⟨rfl, ?_, fun a ha => ⟨?_, fun v hv => ⟨fun hs => State.resolveValue_lt hs hv, ?_⟩⟩⟩
  · rintro w rfl
    exact instructionTakesItsFirstFault _ _ _ rfl
  · rintro w rfl
    exact instructionTakesItsFirstFault _ _ _
      (by rw [firstFault, invalidIn_eq_none_of_resolveValue ha]; rfl)
  · rw [← addrOf_eq_ofNat]
    exact exec_wmem ha hv

end Sys2Proof.Machine
end

section
/-! PROOFS. Comparison (spec/42_compare.md): `eq` and `gt` (R120, R121), as two cases of one rule for
every F3 instruction that computes its result without a fault of its own. -/

namespace Sys2Proof.Machine

variable {s : State} {dst a b : Operand} {va vb v : Word}

/-! ### What the F3 shape comes to -/

theorem State.ternary_inv_right {f : Word → Word → Except FaultCause Word} {w : Word}
    (ha : s.resolveValue a = .ok va) :
    s.ternary f dst a (.inv w) = .error (.invalidOperand w) := by
  rw [State.ternary, ha]; rfl

/-- Once the result is computed, only the write is left, and the advance after it. -/
theorem State.ternary_of_result {f : Word → Word → Except FaultCause Word}
    (ha : s.resolveValue a = .ok va) (hb : s.resolveValue b = .ok vb) (hv : f va vb = .ok v) :
    s.ternary f dst a b = s.genericWrite dst v >>= fun t => .ok (t.advance 4) := by
  rw [State.ternary, ha, ok_bind, hb, ok_bind, hv]; rfl

/-- An instruction whose effect is the F3 shape, with a total function `g` on words that computes `f`
on naturals, follows the F3 rule for `f`. -/
theorem ternaryRule_of_exec_eq_ternary {mk : Operand → Operand → Operand → Instr} {op : Word}
    {f : Nat → Nat → Nat} {g : Word → Word → Word}
    (hwords : ∀ dst a b, encode (mk dst a b) = [op, dst.toWord, a.toWord, b.toWord])
    (hexec : ∀ s dst a b,
      exec (mk dst a b) s = s.finish (s.ternary (fun va vb => .ok (g va vb)) dst a b))
    (hvalue : ∀ va vb, g va vb = BitVec.ofNat 16 (f va.toNat vb.toNat))
    (hlt : ∀ va vb : Word, f va.toNat vb.toNat < 32768) :
    TernaryRule mk op f := by
  intro s dst a b
  rw [hexec]
  refine ⟨hwords dst a b, ?_, ?_, fun va vb ha hb => ⟨hlt va vb, ?_⟩⟩
  · rintro w rfl; rfl
  · rintro va w ha rfl
    rw [State.ternary_inv_right ha, State.finish_error]
  · rw [State.ternary_of_result ha hb rfl, hvalue]
    refine ⟨?_, ?_, ?_⟩
    · rintro w rfl; rfl
    · rintro i rfl; rfl
    · rintro m rfl; rfl

/-! ### The values of the comparisons -/

theorem eqValue_eq_ofNat (va vb : Word) :
    eqValue va vb = BitVec.ofNat 16 (if va.toNat = vb.toNat then 1 else 0) :=
  (apply_ite (BitVec.ofNat 16) _ _ _).symm

theorem gtValue_eq_ofNat (va vb : Word) :
    gtValue va vb = BitVec.ofNat 16 (if va.toNat > vb.toNat then 1 else 0) :=
  (apply_ite (BitVec.ofNat 16) _ _ _).symm

/-- The result of a comparison is in the semantic range (R23). -/
theorem ite_one_zero_lt (p : Prop) [Decidable p] : (if p then 1 else 0) < 32768 := by
  split <;> decide

/-! ### The rules of the instructions (R120, R121) -/

/-- Settles O38: `eq` has the F3 shape with `eqValue`. -/
theorem eqWritesOneWhenEqual : Obligations.EqWritesOneWhenEqual :=
  ternaryRule_of_exec_eq_ternary (fun _ _ _ => rfl) (fun _ _ _ _ => rfl) eqValue_eq_ofNat
    fun _ _ => ite_one_zero_lt _

/-- Settles O39: `gt` has the F3 shape with `gtValue`. -/
theorem gtWritesOneWhenGreater : Obligations.GtWritesOneWhenGreater :=
  ternaryRule_of_exec_eq_ternary (fun _ _ _ => rfl) (fun _ _ _ _ => rfl) gtValue_eq_ofNat
    fun _ _ => ite_one_zero_lt _

end Sys2Proof.Machine
end

section
/-! PROOFS. Arithmetic and logic (spec/43_arith_logic.md): the rules of `add`, `mult`, `mod`, `and`,
`or` and `not` (R130 to R135), and subtraction and negation by way of them (R136). -/

namespace Sys2Proof.Machine

variable {s : State} {dst a b : Operand} {va vb v : Word}

/-! ### The write and the advance that end every effect -/

/-- An instruction that has come down to its RawAddress destination: the fault of an invalid one, or
the write and the advance (R45, R83). -/
theorem exec_cases_of_genericWrite {ins : Instr} {n : Nat}
    (h : exec ins s = s.finish (s.genericWrite dst v >>= fun t => .ok (t.advance n))) :
    (∀ w, dst = .inv w → exec ins s = .next (s.raise (.invalidOperand w))) ∧
    (∀ i, dst = .reg i →
      exec ins s = .next ((s.writeReg i v).withPc (s.pc + BitVec.ofNat 15 n))) ∧
    (∀ m, dst = .lit m →
      exec ins s = .next ((s.writeMem m v).withPc (s.pc + BitVec.ofNat 15 n))) := by
  refine ⟨?_, ?_, ?_⟩
  · rintro w rfl; exact h
  · rintro i rfl; exact h
  · rintro m rfl; exact h

/-! ### The effect of each instruction once its operands resolve -/

theorem exec_add_reg (ha : s.resolveValue a = .ok va) (hb : s.resolveValue b = .ok vb)
    (i : Fin 8) :
    exec (.add (.reg i) a b) s = .next ((s.writeReg i (addValue va vb)).withPc (s.pc + 4)) := by
  have heffect : exec (.add (.reg i) a b) s =
      s.finish (s.ternary (fun va vb => .ok (addValue va vb)) (.reg i) a b) := rfl
  rw [heffect, State.ternary_of_result ha hb rfl]; rfl

/-- R132: the divisor decides before the destination does. -/
theorem exec_mod (ha : s.resolveValue a = .ok va) (hb : s.resolveValue b = .ok vb)
    (hv : modValue va vb = .ok v) :
    exec (.mod dst a b) s = s.finish (s.genericWrite dst v >>= fun t => .ok (t.advance 4)) := by
  have heffect : exec (.mod dst a b) s = s.finish (s.ternary modValue dst a b) := rfl
  rw [heffect, State.ternary_of_result ha hb hv]

/-- R135: once the operand resolves, only the write of its complement is left. -/
theorem exec_not (ha : s.resolveValue a = .ok va) :
    exec (.not dst a) s =
      s.finish (s.genericWrite dst (notValue va) >>= fun t => .ok (t.advance 3)) := by
  have heffect : exec (.not dst a) s = s.finish (s.resolveValue a >>= fun va =>
      s.genericWrite dst (notValue va) >>= fun t => .ok (t.advance 3)) := rfl
  rw [heffect, ha, ok_bind]

theorem exec_not_reg (ha : s.resolveValue a = .ok va) (i : Fin 8) :
    exec (.not (.reg i) a) s = .next ((s.writeReg i (notValue va)).withPc (s.pc + 3)) := by
  rw [exec_not ha]; rfl

/-- The next instruction reads the register that was written. -/
theorem State.reg_writeReg_withPc (s : State) (i : Fin 8) (v : Word) (p : Addr) :
    ((s.writeReg i v).withPc p).reg i = v := by
  rw [State.withPc_reg, State.writeReg_reg, if_pos rfl]

/-! ### The values as naturals (R136) -/

@[simp] theorem addValue_toNat (va vb : Word) :
    (addValue va vb).toNat = (va.toNat + vb.toNat) % 32768 := by
  simp only [addValue, BitVec.toNat_ofNat]; omega

@[simp] theorem notValue_toNat (va : Word) :
    (notValue va).toNat = (65535 - va.toNat) % 32768 := by
  simp only [notValue, BitVec.toNat_ofNat]; omega

theorem modValue_of_ne_zero (h : vb.toNat ≠ 0) :
    modValue va vb = .ok (BitVec.ofNat 16 (va.toNat % vb.toNat % 32768)) :=
  if_neg h

/-- Adding the complement of `k` modulo 32768 subtracts `k`, and wraps below 0. -/
theorem addValue_complement (h : va.toNat < 32768) (k : BitVec 15) :
    (addValue va (wordOf (BitVec.ofNat 15 (32768 - k.toNat)))).toNat =
      if k.toNat ≤ va.toNat then va.toNat - k.toNat else va.toNat + 32768 - k.toNat := by
  have hk := k.isLt
  rw [addValue_toNat, wordOf_toNat, BitVec.toNat_ofNat]
  split <;> omega

/-- Two's complement on 15 bits. -/
theorem addValue_notValue_one (h : va.toNat < 32768) :
    (addValue (notValue va) (wordOf 1)).toNat = (32768 - va.toNat) % 32768 := by
  have hone : (1 : Addr).toNat = 1 := rfl
  rw [addValue_toNat, notValue_toNat, wordOf_toNat, hone]
  omega

/-- On 15 bits, exclusive or with all ones is the complement. -/
theorem complement_eq_xor {n : Nat} (h : n < 32768) : 32767 - n = n ^^^ 0x7FFF := by
  have hxor := congrArg BitVec.toNat (BitVec.xor_allOnes (x := BitVec.ofNat 15 n))
  rw [BitVec.toNat_xor, BitVec.toNat_not, BitVec.toNat_allOnes, BitVec.toNat_ofNat,
    Nat.mod_eq_of_lt h] at hxor
  exact hxor.symm

/-- The conjunction of two values on 15 bits is one, so each masking of C1 gives the same. -/
theorem and_masked {m n : Nat} (hm : m < 32768) (hn : n < 32768) :
    (m % 32768) &&& (n % 32768) = m &&& n ∧ m &&& (n % 32768) = m &&& n ∧
      (m &&& n) % 32768 = m &&& n := by
  have hand : m &&& n < 32768 := Nat.and_lt_two_pow (n := 15) m hn
  simp only [Nat.mod_eq_of_lt, hm, hn, hand, and_self]

/-- The disjunction of two values on 15 bits is one, so each masking of C1 gives the same. -/
theorem or_masked {m n : Nat} (hm : m < 32768) (hn : n < 32768) :
    (m % 32768) ||| (n % 32768) = m ||| n ∧ m ||| (n % 32768) = m ||| n ∧
      (m ||| n) % 32768 = m ||| n := by
  have hor : m ||| n < 32768 := Nat.or_lt_two_pow (n := 15) hm hn
  simp only [Nat.mod_eq_of_lt, hm, hn, hor, and_self]

/-! ### The rules of the instructions (R130 to R135) -/

/-- Settles O40: `add` has the F3 shape with `addValue`. -/
theorem addWritesTheSumModulo32768 : Obligations.AddWritesTheSumModulo32768 :=
  ternaryRule_of_exec_eq_ternary (fun _ _ _ => rfl) (fun _ _ _ _ => rfl) (fun _ _ => rfl)
    fun _ _ => Nat.mod_lt _ (by decide)

/-- Settles O41: `mult` has the F3 shape with `multValue`. -/
theorem multWritesTheProductModulo32768 : Obligations.MultWritesTheProductModulo32768 :=
  ternaryRule_of_exec_eq_ternary (fun _ _ _ => rfl) (fun _ _ _ _ => rfl) (fun _ _ => rfl)
    fun _ _ => Nat.mod_lt _ (by decide)

/-- Settles O42: a zero divisor is the first fault after those of the operands; past it `modValue`
is total. -/
theorem modWritesTheRemainder : Obligations.ModWritesTheRemainder := by
  intro s dst a b
  refine ⟨rfl, ?_, ?_, fun va vb ha hb => ⟨fun hzero => ?_, fun hne => ⟨fun hva => ?_,
    exec_cases_of_genericWrite (exec_mod ha hb (modValue_of_ne_zero hne))⟩⟩⟩
  · rintro w rfl
    exact instructionTakesItsFirstFault _ _ _ rfl
  · rintro va w ha rfl
    exact instructionTakesItsFirstFault _ _ _
      (by rw [firstFault, invalidIn_eq_none_of_resolveValue ha]; rfl)
  · have hmod : modValue va vb = .error .divideByZero := if_pos hzero
    have hfirst := (modValue_faultsAs hb va).eq_error_iff.mp hmod
    exact instructionTakesItsFirstFault _ _ _ (by
      rw [firstFault, invalidIn_eq_none_of_resolveValue ha, invalidIn_eq_none_of_resolveValue hb,
        hfirst]; rfl)
  · exact Nat.mod_eq_of_lt (Nat.lt_of_le_of_lt (Nat.mod_le _ _) hva)

/-- Settles O43: `and` has the F3 shape with `andValue`, and a conjunction keeps to 15 bits. -/
theorem andWritesTheMaskedConjunction : Obligations.AndWritesTheMaskedConjunction :=
  ⟨ternaryRule_of_exec_eq_ternary (fun _ _ _ => rfl) (fun _ _ _ _ => rfl) (fun _ _ => rfl)
    fun _ _ => Nat.and_lt_two_pow (n := 15) _ (Nat.mod_lt _ (by decide)),
   fun _ _ => and_masked⟩

/-- Settles O44: `or` has the F3 shape with `orValue`, and a disjunction keeps to 15 bits. -/
theorem orWritesTheMaskedDisjunction : Obligations.OrWritesTheMaskedDisjunction :=
  ⟨ternaryRule_of_exec_eq_ternary (fun _ _ _ => rfl) (fun _ _ _ _ => rfl) (fun _ _ => rfl)
    fun _ _ => Nat.or_lt_two_pow (n := 15) (Nat.mod_lt _ (by decide)) (Nat.mod_lt _ (by decide)),
   fun _ _ => or_masked⟩

/-- Settles O45: past the operand's check, only the write of the complement can fault. -/
theorem notWritesTheComplement : Obligations.NotWritesTheComplement := by
  intro s dst a
  refine ⟨rfl, ?_, fun va ha => ⟨fun hva => ⟨by omega, complement_eq_xor hva⟩,
    exec_cases_of_genericWrite (exec_not ha)⟩⟩
  rintro w rfl
  exact instructionTakesItsFirstFault _ _ _ rfl

/-! ### Subtraction and negation (R136) -/

/-- Settles O46: each register holds what `addValue` and `notValue` give for it. -/
theorem addingTheComplementSubtracts : Obligations.AddingTheComplementSubtracts := by
  intro s t a va k i ha hva
  refine ⟨fun hadd => ?_, fun u hnot hadd => ?_⟩
  · rw [exec_add_reg ha rfl] at hadd
    cases hadd
    rw [State.reg_writeReg_withPc, addValue_complement hva]
  · rw [exec_not_reg ha] at hnot
    cases hnot
    rw [exec_add_reg (State.resolveValue_reg _ i) rfl] at hadd
    cases hadd
    rw [State.reg_writeReg_withPc, State.reg_writeReg_withPc, addValue_notValue_one hva]

end Sys2Proof.Machine
end

section
/-! PROOFS. Control transfer (spec/44_control_transfer.md): the words, the faults in order and the next
state of `jmp`, `jt`, `jf`, `call` and `ret` (R151 to R155), and what a call and the ret over its
stack come to (R156). -/

namespace Sys2Proof.Machine

variable {s t : State} {cond target : Operand} {c v : Word}

/-! ### Where a jump goes (R150) -/

theorem State.jumpTo_eq_withPc (s : State) (v : Word) :
    s.jumpTo v = s.withPc (BitVec.ofNat 15 (v.toNat % 32768)) :=
  congrArg s.withPc (addrOf_eq_ofNat v)

/-! ### The effect of each instruction once its checks pass -/

theorem exec_jmp (hv : s.resolveValue target = .ok v) :
    exec (.jmp target) s = .next (s.jumpTo v) := by
  have heffect : exec (.jmp target) s =
      s.finish (s.resolveValue target >>= fun v => .ok (s.jumpTo v)) := rfl
  rw [heffect, hv]; rfl

/-- R154: the target is resolved, then the return address is pushed if the capacity allows. -/
theorem exec_call (target : Operand) (s : State) : exec (.call target) s =
    s.finish (s.resolveValue target >>= fun v =>
      s.push 17 (wordOf (s.pc + 2)) >>= fun q => .ok (q.jumpTo v)) := rfl

theorem exec_ret_of_stack {rest : List Word} (hs : s.stack = v :: rest) :
    exec .ret s = .next ((s.withStack rest).jumpTo v) := by
  have heffect : exec .ret s = s.finish (s.pop 18 >>= fun p => .ok (p.2.jumpTo p.1)) := rfl
  rw [heffect, State.pop_eq_ok.mpr ⟨rest, hs, rfl⟩]; rfl

/-! ### A call that takes no fault, and the ret over its stack (R156) -/

/-- A call that leaves the machine Running put its return address on top and jumped. -/
theorem exec_call_eq_running (h : exec (.call target) s = .next t) (hr : t.run = .running) :
    ∃ v, s.resolveValue target = .ok v ∧
      t = (s.withStack (wordOf (s.pc + 2) :: s.stack)).jumpTo v := by
  rw [exec_call] at h
  obtain ⟨v, hv, hcall⟩ := bind_eq_ok.mp (State.finish_eq_running h hr)
  obtain ⟨q, hq, hjump⟩ := bind_eq_ok.mp hcall
  obtain ⟨-, rfl⟩ := State.push_eq_ok.mp hq
  cases hjump
  exact ⟨v, hv, rfl⟩

/-- Settles O52: the top that the call left is its return address, which is an address already, so
the jump's reduction keeps it. -/
theorem retUndoesCall : Obligations.RetUndoesCall := by
  intro s t u target _ hcall ht hstack
  obtain ⟨v, -, rfl⟩ := exec_call_eq_running hcall ht
  rw [State.jumpTo_stack, State.withStack_stack] at hstack
  rw [exec_ret_of_stack hstack, State.jumpTo, addrOf_wordOf]; rfl

/-! ### What the branch shape comes to -/

theorem State.branch_inv_right {test : Word → Bool} {w : Word} (hc : s.resolveValue cond = .ok c) :
    s.branch test cond (.inv w) = .error (.invalidOperand w) := by
  rw [State.branch, hc]; rfl

/-- Once both operands resolve, only the test is left. -/
theorem State.branch_of_resolveValue {test : Word → Bool} (hc : s.resolveValue cond = .ok c)
    (hv : s.resolveValue target = .ok v) :
    s.branch test cond target = .ok (if test c then s.jumpTo v else s.advance 3) := by
  rw [State.branch, hc, ok_bind, hv, ok_bind]

/-- An instruction whose effect is the branch shape, with a test on words that decides `taken` on
naturals, follows the branch rule for `taken`. -/
theorem branchRule_of_exec_eq_branch {mk : Operand → Operand → Instr} {op : Word}
    {taken : Nat → Prop} {test : Word → Bool}
    (hwords : ∀ cond target, encode (mk cond target) = [op, cond.toWord, target.toWord])
    (hexec : ∀ s cond target, exec (mk cond target) s = s.finish (s.branch test cond target))
    (htest : ∀ c, test c = true ↔ taken c.toNat) :
    BranchRule mk op taken := by
  intro s cond target
  rw [hexec]
  refine ⟨hwords cond target, ?_, fun c hc => ⟨?_, fun v hv => ?_⟩⟩
  · rintro w rfl; rfl
  · rintro w rfl
    rw [State.branch_inv_right hc, State.finish_error]
  · rw [State.branch_of_resolveValue hc hv, State.finish_ok, ← htest, ← State.jumpTo_eq_withPc]
    refine ⟨fun htaken => ?_, fun hnot => ?_⟩
    · rw [if_pos htaken]
    · rw [if_neg hnot]; rfl

/-! ### The rules of the instructions (R151 to R155) -/

/-- Settles O47: past the target's check, the jump is the whole effect. -/
theorem jmpSetsThePc : Obligations.JmpSetsThePc := by
  intro s target
  refine ⟨rfl, ?_, fun v hv => ?_⟩
  · rintro w rfl
    exact instructionTakesItsFirstFault _ _ _ rfl
  · rw [exec_jmp hv, State.jumpTo_eq_withPc]

/-- Settles O48: `jt` has the branch shape with `isNonZero`. -/
theorem jtJumpsOnNonZero : Obligations.JtJumpsOnNonZero :=
  branchRule_of_exec_eq_branch (fun _ _ => rfl) (fun _ _ _ => rfl) fun _ => decide_eq_true_iff

/-- Settles O49: `jf` has the branch shape with `isZero`. -/
theorem jfJumpsOnZero : Obligations.JfJumpsOnZero :=
  branchRule_of_exec_eq_branch (fun _ _ => rfl) (fun _ _ _ => rfl) fun _ => decide_eq_true_iff

/-- Settles O50, on each side of the capacity. -/
theorem callPushesTheReturnAddress : Obligations.CallPushesTheReturnAddress := by
  intro s target
  refine ⟨rfl, ?_, fun v hv => ⟨fun hfull => ?_, fun hroom => ?_⟩⟩
  · rintro w rfl
    exact instructionTakesItsFirstFault _ _ _ rfl
  · exact instructionTakesItsFirstFault _ _ _
      (by rw [firstFault, invalidIn_eq_none_of_resolveValue hv, fullStack, if_pos hfull]; rfl)
  · rw [exec_call, hv, ok_bind, State.push_eq_ok.mpr ⟨hroom, rfl⟩, ok_bind, State.finish_ok,
      State.jumpTo_eq_withPc, wordOf_pc_add_two]

/-- Settles O51: the stack decides between the fault and the jump. -/
theorem retJumpsToThePoppedAddress : Obligations.RetJumpsToThePoppedAddress := by
  refine fun s => ⟨rfl, fun hempty => ?_, fun v rest hs => ?_⟩
  · exact instructionTakesItsFirstFault _ _ _ (by rw [firstFault, emptyStack, if_pos hempty])
  · rw [exec_ret_of_stack hs, State.jumpTo_eq_withPc]

end Sys2Proof.Machine
end

section
/-! PROOFS. System and output (spec/45_system_and_output.md): `halt`, `out` and `noop` (R170 to R172),
and the resolved opcodes that have no row (R173). -/

namespace Sys2Proof.Machine

variable {s : State} {ch : Operand} {v op : Word}

/-! ### What the fetch makes of a resolved opcode -/

/-- R173: an opcode without a row faults before any operand word is read. -/
theorem State.fetch_of_no_row (hop : s.fetchOpcode = .ok op) (hrow : operandModes op = none) :
    s.fetch = .error (.undefinedOpcode op) := by
  simp only [State.fetch, hop, ok_bind, hrow]

/-- The opcode 0 is `halt`, wherever it is resolved from (R170). -/
theorem State.fetch_of_fetchOpcode_zero (hop : s.fetchOpcode = .ok 0) : s.fetch = .ok .halt :=
  State.fetch_of_fetchOperands_ok hop rfl rfl rfl

/-! ### The effect of `halt` and of `out` -/

theorem exec_halt (s : State) : exec .halt s = .next s.enterHalted := rfl

theorem step_of_fetchOpcode_zero (hr : s.run = .running) (hop : s.fetchOpcode = .ok 0) :
    step s = .next s.enterHalted := by
  rw [step_of_fetch_ok hr (State.fetch_of_fetchOpcode_zero hop), exec_halt]

theorem exec_out_of_resolveValue (hv : s.resolveValue ch = .ok v) :
    exec (.out ch) s = .next (s.afterOut v) := by
  rw [exec_out, hv, ok_bind, State.finish_ok]

theorem State.afterOut_emits (htr : s.traceEn = false) (v : Word) :
    s.afterOut v = (s.emit v).withPc (s.pc + 2) := by
  rw [State.afterOut, htr]; rfl

theorem State.afterOut_traced (htr : s.traceEn = true) (v : Word) :
    s.afterOut v = s.withPc (s.pc + 2) := by
  rw [State.afterOut, htr]; rfl

/-- The values appended to the output log are the step's output events (R8). -/
theorem State.outputEvents_of_outlog_eq {t : State} {vs : List Word}
    (h : t.outlog = s.outlog ++ vs) : s.outputEvents t = vs := by
  rw [State.outputEvents, h, List.drop_left]

/-! ### The rules (R170 to R173) -/

/-- Settles O12: the opcodes named are those without a row. -/
theorem undefinedOpcodeFaults : Obligations.UndefinedOpcodeFaults := by
  intro s op hr hop hundefined
  exact step_of_fetch_error hr (State.fetch_of_no_row hop (operandModes_eq_none.mpr hundefined))

/-- Settles O53: an image's first word is at the pc after reset, so an image that begins with 0 is a
case of an opcode that resolves to 0. -/
theorem haltEntersHaltedAtItsAddress : Obligations.HaltEntersHaltedAtItsAddress := by
  refine ⟨fun s => ⟨rfl, exec_halt s⟩, fun s => step_of_fetchOpcode_zero, ?_⟩
  intro cfg rest traceEn s hreset
  obtain ⟨-, rfl⟩ := State.resetWith_eq_some.mp hreset
  exact ⟨step_of_fetchOpcode_zero rfl rfl, rfl, rfl⟩

/-- Settles O54: past the operand's check, only the trace latch decides. -/
theorem outEmitsOutsideTraceMode : Obligations.OutEmitsOutsideTraceMode := by
  intro s ch
  refine ⟨rfl, ?_, fun v hv => ⟨fun htr => ⟨?_, ?_⟩, fun htr => ?_⟩⟩
  · rintro w rfl
    exact instructionTakesItsFirstFault _ _ _ rfl
  · rw [exec_out_of_resolveValue hv, State.afterOut_emits htr]; rfl
  · exact State.outputEvents_of_outlog_eq rfl
  · rw [exec_out_of_resolveValue hv, State.afterOut_traced htr]

/-- Settles O55: the addition of the advance wraps at 32768. -/
theorem noopAdvancesThePc : Obligations.NoopAdvancesThePc := by
  intro s
  have heffect : exec .noop s = .next (s.withPc (s.pc + 1)) := rfl
  have hpc : s.pc + 1 = BitVec.ofNat 15 ((s.pc.toNat + 1) % 32768) :=
    BitVec.eq_of_toNat_eq (by simp)
  exact ⟨rfl, by rw [heffect, hpc]⟩

end Sys2Proof.Machine
end

section
/-! PROOFS. The status ports and the exit status (spec/10_state.md R30, R31; spec/60_exceptions.md R181,
R198). -/

namespace Sys2Proof.Machine

variable {s : State}

/-! ### The status ports -/

theorem State.status_state (s : State) : s.status.state = s.run.code := rfl

/-- R84: the ports show Faulted, what R181's table says of the cause, and the instruction's address. -/
theorem State.raise_status (s : State) (c : FaultCause) :
    (s.raise c).status = ⟨2, c.kind.code, c.value, s.pc⟩ := by
  rw [State.status, s.raise_run, s.raise_fault]; rfl

/-- An address, as the value that `UnloadedRead` records. -/
theorem wordOf_eq_ofNat (a : Addr) : wordOf a = BitVec.ofNat 16 a.toNat :=
  (BitVec.ofNat_toNat 16 a).symm

/-! ### The exit status in each run state -/

theorem State.exitStatus_of_running (h : s.run = .running) : s.exitStatus = none := by
  rw [State.exitStatus, h]

theorem State.exitStatus_of_halted (h : s.run = .halted) : s.exitStatus = some 0 := by
  rw [State.exitStatus, h]

/-- R198: the exit status of a fault is what the port `status.fault_kind` shows. -/
theorem State.exitStatus_of_faulted (h : s.run = .faulted) :
    s.exitStatus = some s.status.faultKind.toNat := by
  rw [State.exitStatus, h]; rfl

/-! ### The rules (R181, R198) -/

/-- Settles O16: one lemma gives the ports of every cause, and the run state decides the exit status. -/
theorem statusPortsAndExitStatus : Obligations.StatusPortsAndExitStatus := by
  intro s c w a
  have hunloaded : (s.raise (.unloadedRead a)).status = ⟨2, 6, BitVec.ofNat 16 a.toNat, s.pc⟩ := by
    rw [← wordOf_eq_ofNat]; exact s.raise_status _
  have hhalted : s.enterHalted.status.state = 1 := by
    rw [State.status_state, s.enterHalted_run]; rfl
  have hrunning (h : s.run = .running) : s.status.state = 0 ∧ s.exitStatus = none :=
    ⟨by rw [State.status_state, h]; rfl, State.exitStatus_of_running h⟩
  exact ⟨s.raise_status _, s.raise_status _, s.raise_status _, s.raise_status _, s.raise_status _,
    hunloaded, s.raise_status _, hhalted, State.exitStatus_of_halted s.enterHalted_run,
    State.exitStatus_of_faulted (s.raise_run c), hrunning⟩

end Sys2Proof.Machine
end

section
/-! PROOFS. Progress (spec/70_reset_and_hazards.md R221; spec/40_dispatch.md R85): an instruction to
which no fault applies completes. Checks that name no fault pass, and past its checks each instruction
has one next state. -/

namespace Sys2Proof.Machine

/-- The instruction answers a next state with the fault record and the run state unchanged. -/
def Completes (i : Instr) (s : State) : Prop :=
  ∃ t, exec i s = .next t ∧ t.fault = s.fault ∧ t.run = s.run

variable {s u : State} {i : Instr} {dst a b cond target o : Operand} {v : Word}

/-! ### Checks that name no fault -/

theorem FaultsAs.exists_eq_ok {α : Type} {r : Except FaultCause α} {f : Option FaultCause}
    (h : FaultsAs r f) (hf : f = none) : ∃ x, r = .ok x := by
  cases h with
  | ok x => exact ⟨x, rfl⟩
  | error c => cases hf

theorem exists_resolveValue_eq_ok (s : State) (h : invalidIn o = none) :
    ∃ v, s.resolveValue o = .ok v :=
  (resolveValue_faultsAs s o).exists_eq_ok h

/-- R65, R67: a RegisterIndex destination that neither of its checks rejects is a register. -/
theorem exists_eq_reg (hinv : invalidIn dst = none) (hlit : literalDest dst = none) :
    ∃ r, dst = .reg r := by
  cases dst with
  | lit w => cases hlit
  | reg r => exact ⟨r, rfl⟩
  | inv w => cases hinv

/-- R24: a push that names no fault puts its value on top. -/
theorem State.push_of_fullStack_eq_none {op : Word} (h : fullStack s op = none) (v : Word) :
    s.push op v = .ok (s.withStack (v :: s.stack)) := by
  obtain ⟨t, ht⟩ := (push_faultsAs s op v).exists_eq_ok h
  obtain ⟨-, rfl⟩ := State.push_eq_ok.mp ht
  exact ht

theorem State.exists_stack_eq_cons {op : Word} (h : emptyStack s op = none) :
    ∃ v rest, s.stack = v :: rest := by
  obtain ⟨⟨v, t⟩, ht⟩ := (pop_faultsAs s op).exists_eq_ok h
  obtain ⟨rest, hs, -⟩ := State.pop_eq_ok.mp ht
  exact ⟨v, rest, hs⟩

/-! ### The shapes that several instructions share -/

/-- The write and the advance that end an effect reach neither the record nor the run state. -/
theorem completes_of_genericWrite {n : Nat}
    (hexec : exec i s = s.finish (u.genericWrite dst v >>= fun t => .ok (t.advance n)))
    (hfault : u.fault = s.fault) (hrun : u.run = s.run) (hdst : invalidIn dst = none) :
    Completes i s := by
  cases dst with
  | lit m => exact ⟨_, hexec, hfault, hrun⟩
  | reg r => exact ⟨_, hexec, hfault, hrun⟩
  | inv w => cases hdst

theorem completes_of_ternary {f : Word → Word → Except FaultCause Word} {g : Option FaultCause}
    (hexec : exec i s = s.finish (s.ternary f dst a b))
    (hf : ∀ va vb, s.resolveValue b = .ok vb → FaultsAs (f va vb) g)
    (h : (invalidIn a).or ((invalidIn b).or (g.or (invalidIn dst))) = none) : Completes i s := by
  simp only [Option.or_eq_none_iff] at h
  obtain ⟨ha, hb, hg, hdst⟩ := h
  obtain ⟨va, hva⟩ := exists_resolveValue_eq_ok s ha
  obtain ⟨vb, hvb⟩ := exists_resolveValue_eq_ok s hb
  obtain ⟨v, hv⟩ := (hf va vb hvb).exists_eq_ok hg
  rw [State.ternary_of_result hva hvb hv] at hexec
  exact completes_of_genericWrite hexec rfl rfl hdst

theorem completes_of_branch {test : Word → Bool}
    (hexec : exec i s = s.finish (s.branch test cond target))
    (h : (invalidIn cond).or (invalidIn target) = none) : Completes i s := by
  obtain ⟨hcond, htarget⟩ := Option.or_eq_none_iff.mp h
  obtain ⟨c, hc⟩ := exists_resolveValue_eq_ok s hcond
  obtain ⟨v, hv⟩ := exists_resolveValue_eq_ok s htarget
  rw [State.branch_of_resolveValue hc hv, State.finish_ok] at hexec
  refine ⟨_, hexec, ?_⟩
  split
  · exact ⟨rfl, rfl⟩
  · exact ⟨rfl, rfl⟩

/-! ### Every instruction -/

/-- R85, R221: the checks of an instruction to which no fault applies pass, and its effect past them
changes neither the record nor, unless it is `halt`, the run state. -/
theorem completes_of_firstFault_eq_none (hi : i ≠ .halt) (h : firstFault i s = none) :
    Completes i s := by
  cases i with
  | halt => exact absurd rfl hi
  | noop => exact ⟨_, rfl, rfl, rfl⟩
  | eq dst a b => exact completes_of_ternary rfl (fun _ _ _ => .ok _) h
  | gt dst a b => exact completes_of_ternary rfl (fun _ _ _ => .ok _) h
  | add dst a b => exact completes_of_ternary rfl (fun _ _ _ => .ok _) h
  | mult dst a b => exact completes_of_ternary rfl (fun _ _ _ => .ok _) h
  | mod dst a b => exact completes_of_ternary rfl (fun va _ hb => modValue_faultsAs hb va) h
  | and dst a b => exact completes_of_ternary rfl (fun _ _ _ => .ok _) h
  | or dst a b => exact completes_of_ternary rfl (fun _ _ _ => .ok _) h
  | jt cond target => exact completes_of_branch rfl h
  | jf cond target => exact completes_of_branch rfl h
  | not dst a =>
    obtain ⟨ha, hdst⟩ := Option.or_eq_none_iff.mp h
    obtain ⟨va, hva⟩ := exists_resolveValue_eq_ok s ha
    exact completes_of_genericWrite (exec_not hva) rfl rfl hdst
  | set dst src =>
    simp only [firstFault, Option.or_eq_none_iff] at h
    obtain ⟨hdst, hsrc, hlit⟩ := h
    obtain ⟨r, rfl⟩ := exists_eq_reg hdst hlit
    obtain ⟨v, hv⟩ := exists_resolveValue_eq_ok s hsrc
    exact ⟨_, exec_set_reg hv r, rfl, rfl⟩
  | rmem dst srcAddr =>
    simp only [firstFault, Option.or_eq_none_iff] at h
    obtain ⟨hdst, haddr, hread, hlit⟩ := h
    obtain ⟨r, rfl⟩ := exists_eq_reg hdst hlit
    obtain ⟨a, ha⟩ := exists_resolveValue_eq_ok s haddr
    obtain ⟨v, hword⟩ := (dataRead_faultsAs ha).exists_eq_ok hread
    obtain ⟨m, hm, hv⟩ := bind_eq_ok.mp hword
    exact ⟨_, exec_rmem_reg ha hm hv r, rfl, rfl⟩
  | wmem dstAddr src =>
    obtain ⟨haddr, hsrc⟩ := Option.or_eq_none_iff.mp h
    obtain ⟨a, ha⟩ := exists_resolveValue_eq_ok s haddr
    obtain ⟨v, hv⟩ := exists_resolveValue_eq_ok s hsrc
    exact ⟨_, exec_wmem ha hv, rfl, rfl⟩
  | push src =>
    obtain ⟨hsrc, hroom⟩ := Option.or_eq_none_iff.mp h
    obtain ⟨v, hv⟩ := exists_resolveValue_eq_ok s hsrc
    have hexec := exec_push src s
    rw [hv, ok_bind, State.push_of_fullStack_eq_none hroom, ok_bind, State.finish_ok] at hexec
    exact ⟨_, hexec, rfl, rfl⟩
  | pop dst =>
    obtain ⟨hstack, hdst⟩ := Option.or_eq_none_iff.mp h
    obtain ⟨v, rest, hs⟩ := State.exists_stack_eq_cons hstack
    exact completes_of_genericWrite (exec_pop_of_stack hs) rfl rfl hdst
  | jmp target =>
    obtain ⟨v, hv⟩ := exists_resolveValue_eq_ok s h
    exact ⟨_, exec_jmp hv, rfl, rfl⟩
  | call target =>
    obtain ⟨htarget, hroom⟩ := Option.or_eq_none_iff.mp h
    obtain ⟨v, hv⟩ := exists_resolveValue_eq_ok s htarget
    have hexec := exec_call target s
    rw [hv, ok_bind, State.push_of_fullStack_eq_none hroom, ok_bind, State.finish_ok] at hexec
    exact ⟨_, hexec, rfl, rfl⟩
  | ret =>
    obtain ⟨v, rest, hs⟩ := State.exists_stack_eq_cons h
    exact ⟨_, exec_ret_of_stack hs, rfl, rfl⟩
  | out ch =>
    obtain ⟨v, hv⟩ := exists_resolveValue_eq_ok s h
    refine ⟨_, exec_out_of_resolveValue hv, ?_⟩
    cases htr : s.traceEn with
    | true => rw [State.afterOut_traced htr]; exact ⟨rfl, rfl⟩
    | false => rw [State.afterOut_emits htr]; exact ⟨rfl, rfl⟩

/-- Settles O18: `halt` enters Halted, and every other instruction completes. -/
theorem instructionRunsWhereNoFaultApplies : Obligations.InstructionRunsWhereNoFaultApplies := by
  intro i s h
  by_cases hi : i = .halt
  · subst hi
    exact ⟨_, exec_halt s, rfl, rfl⟩
  · rw [if_neg hi]
    exact completes_of_firstFault_eq_none hi h

end Sys2Proof.Machine
end
